-- ==== Sys2Proof/Word.lean ====
section
/-! DEFINITION. The three widths of the hardware: a byte (00_scope.md R14, 20_memory.md R38), the command word
(30_encoding.md R55) and a fault bitmap (10_state.md R26). All values are unsigned (40_checksum_codec.md R89). -/

namespace Sys2Proof

/-- 8 bits, a value 0..255. -/
abbrev Byte := BitVec 8

/-- The 16-bit command word. -/
abbrev Word := BitVec 16

/-- The 64 fault conditions; code `k` is bit `k - 1`. -/
abbrev Bitmap := BitVec 64

end Sys2Proof
end

