-- ==== Sys2Proof/Config.lean ====
section
/-! DEFINITION. The parameters of one instance of the hardware (00_scope.md R5 to R13). They are an argument of every
claim: `State.cfg` holds them and no step changes it (log 1). There is no free value in this hardware: the spec leaves
no result of a command open. -/

namespace Sys2Proof

/-- The parameters of 00_scope.md section 3. -/
structure Config where
  /-- `PAYLOAD_BOUND`, also written `N`: payload bytes of a data frame (R5). -/
  payloadBound : Nat
  /-- `STX_BYTE` (R7). -/
  stx : Byte
  /-- `ACK_BYTE` (R7). -/
  ack : Byte
  /-- `NAK_BYTE` (R7). -/
  nak : Byte
  /-- `NAK_CODE_EN`: the byte after a NAK is taken as its code (R8). -/
  nakCodeEn : Bool
  /-- `NRX`: number of reassembler instances (R9). -/
  nrx : Nat
  /-- `NCHAN`: number of poll channels of the Fault Register (R10). -/
  nchan : Nat
  /-- `FR_WORDS`: the compiled word count that `FR_INIT` checks (R11). -/
  frWords : Nat
  /-- `FC_INVALID`: the reserved "invalid code" fault (R12). -/
  fcInvalid : Nat
  deriving DecidableEq, Repr

/-- `FRAME_LEN = PAYLOAD_BOUND + 3` (R6). -/
def Config.frameLen (c : Config) : Nat := c.payloadBound + 3

/-- A control byte is one of the three delimiters (00_scope.md, glossary). -/
def Config.isControl (c : Config) (b : Byte) : Bool := b == c.stx || b == c.ack || b == c.nak

/-- The characters `'0'..'9'` and `'A'..'F'` as R13 (c) writes their ranges. -/
def isUpperHexDigit (b : Byte) : Bool :=
  (0x30 ≤ b.toNat && b.toNat ≤ 0x39) || (0x41 ≤ b.toNat && b.toNat ≤ 0x46)

/-- R13 (a). -/
abbrev Config.BoundFits (c : Config) : Prop := c.payloadBound ≤ 252

/-- R13 (b). -/
abbrev Config.ControlsDiffer (c : Config) : Prop := c.stx ≠ c.ack ∧ c.stx ≠ c.nak ∧ c.ack ≠ c.nak

/-- R13 (c). -/
abbrev Config.ControlsNotDigits (c : Config) : Prop :=
  isUpperHexDigit c.stx = false ∧ isUpperHexDigit c.ack = false ∧ isUpperHexDigit c.nak = false

/-- R13 (d). -/
abbrev Config.InvalidCodeInRange (c : Config) : Prop := 1 ≤ c.fcInvalid ∧ c.fcInvalid ≤ 64

/-- R13 (e). -/
abbrev Config.CountsFit (c : Config) : Prop := 1 ≤ c.nrx ∧ 1 ≤ c.nchan ∧ c.nchan ≤ 256

/-- The constraints R13 (a) to (e); a configuration that breaks one is rejected (93_implementation_defined.md I27). -/
abbrev Config.Legal (c : Config) : Prop :=
  c.BoundFits ∧ c.ControlsDiffer ∧ c.ControlsNotDigits ∧ c.InvalidCodeInRange ∧ c.CountsFit

/-- The values the spec's test vectors use (95_test_vectors.md, head; 00_scope.md section 3). PRESUMED for the three
control bytes (the spec's own general knowledge, log 2), DESIGN CHOICE for `NRX`, `NCHAN` and `FC_INVALID`, which the
spec leaves open (log 3). Only `State.reset` and the tests use it. -/
def Config.deployed : Config where
  payloadBound := 7
  stx := 0x02
  ack := 0x06
  nak := 0x15
  nakCodeEn := false
  nrx := 1
  nchan := 2
  frWords := 4
  fcInvalid := 1

end Sys2Proof
end

