-- ==== Sys2Proof/Syntax.lean ====
section
/-! DEFINITION. The thirteen commands (30_encoding.md R59), the command ports (20_memory.md R36) and the transaction,
which is the unit of execution (20_memory.md R37). -/

namespace Sys2Proof

/-- One constructor per row of the opcode map. A B-format command carries its operand bytes, whose number is the word's
`arg` (R57); a C-format command carries its `arg` (R56). -/
inductive Instr where
  /-- `CK_COMPUTE [s]` -/
  | ckCompute (operand : List Byte)
  /-- `CK_RENDER v` -/
  | ckRender (v : Byte)
  /-- `CK_VERIFY [s ++ [ch, cl]]` -/
  | ckVerify (operand : List Byte)
  /-- `RX_BYTE b` -/
  | rxByte (b : Byte)
  /-- `RX_TIMEOUT` -/
  | rxTimeout
  /-- `TX_ACK` -/
  | txAck
  /-- `TX_NAK c` -/
  | txNak (code : Byte)
  /-- `TX_DATA [s]` -/
  | txData (operand : List Byte)
  /-- `FR_INIT` -/
  | frInit
  /-- `FR_SET code` -/
  | frSet (code : Byte)
  /-- `FR_RESET code` -/
  | frReset (code : Byte)
  /-- `FR_STICKY code` -/
  | frSticky (code : Byte)
  /-- `FR_POLL n` -/
  | frPoll (n : Byte)
  deriving DecidableEq, Repr

/-- The command ports (20_memory.md R36); `rx i` is `RX[i]`. -/
inductive Port where
  | ck
  | rx (i : Nat)
  | tx
  | fr
  deriving DecidableEq, Repr

/-- The inputs of one transaction (20_memory.md R37): the port, the command word, the operand bytes, and the sideband
bit (`mb_room` on `RX[i]`, `tx_room` on `TX`, R53; on `CK` and `FR`, which have none, nothing reads it). -/
structure Txn where
  port : Port
  word : Word
  operand : List Byte
  room : Bool
  deriving DecidableEq, Repr

end Sys2Proof
end

