-- ==== Sys2Proof/WellFormed.lean ====
section
/-! DEFINITION. Which terms of `Instr` a command word can name: `arg` is 8 bits, so a B-format operand has at most 255
bytes (30_encoding.md R57). Nothing else can be ill-formed: every `arg` of a C-format command is a byte, and bad codes,
channels and short operands are well-formed commands that are answered with an error status (R60, R64). -/

namespace Sys2Proof

/-- `L` fits the 8-bit `arg` field (30_encoding.md R57). -/
def operandFits (s : List Byte) : Bool := s.length ≤ 255

/-- A command that some transaction carries. -/
def Instr.wf : Instr → Bool
  | .ckCompute s => operandFits s
  | .ckRender _ => true
  | .ckVerify s => operandFits s
  | .rxByte _ => true
  | .rxTimeout => true
  | .txAck => true
  | .txNak _ => true
  | .txData s => operandFits s
  | .frInit => true
  | .frSet _ => true
  | .frReset _ => true
  | .frSticky _ => true
  | .frPoll _ => true

/-- `RX[i]` exists for `i < NRX` only (20_memory.md R36). -/
def Port.isPresent (c : Config) : Port → Bool
  | .ck => true
  | .rx i => i < c.nrx
  | .tx => true
  | .fr => true

end Sys2Proof
end

