-- ==== Sys2Proof/Decode.lean ====
section
/-! DEFINITION. The command word, the opcode map, the decoder and, after it, the encoder (30_encoding.md R55 to R64,
R72, R73), and the images of transactions (R76). -/

namespace Sys2Proof

/-! ## Fields of the command word (R55) -/

/-- `W[15:12]`. -/
def unitOf (w : Word) : BitVec 4 := w.extractLsb' 12 4

/-- `W[11:8]`. -/
def opOf (w : Word) : BitVec 4 := w.extractLsb' 8 4

/-- `W[7:0]`. -/
def argOf (w : Word) : Byte := w.extractLsb' 0 8

/-- The word with the three fields given. -/
def mkWord (unit op : BitVec 4) (arg : Byte) : Word := (unit ++ op) ++ arg

/-- The unit whose commands a port takes (20_memory.md R36, R61). -/
def Port.unit : Port → BitVec 4
  | .ck => 1
  | .rx _ => 2
  | .tx => 3
  | .fr => 4

/-! ## The opcode map (R59, R60) -/

/-- The thirteen rows, by name. -/
inductive Op where
  | ckCompute | ckRender | ckVerify
  | rxByte | rxTimeout
  | txAck | txNak | txData
  | frInit | frSet | frReset | frSticky | frPoll
  deriving DecidableEq, Repr

/-- One row of the opcode map with its `mask` and `match`. -/
structure Row where
  op : Op
  mask : Word
  pattern : Word
  deriving DecidableEq, Repr

/-- 30_encoding.md R59 with the masks of R60. -/
def opcodeTable : List Row :=
  [ ⟨.ckCompute, 0xFF00, 0x1000⟩,
    ⟨.ckRender, 0xFF00, 0x1100⟩,
    ⟨.ckVerify, 0xFF00, 0x1200⟩,
    ⟨.rxByte, 0xFF00, 0x2000⟩,
    ⟨.rxTimeout, 0xFFFF, 0x2100⟩,
    ⟨.txAck, 0xFFFF, 0x3000⟩,
    ⟨.txNak, 0xFF00, 0x3100⟩,
    ⟨.txData, 0xFF00, 0x3200⟩,
    ⟨.frInit, 0xFFFF, 0x4000⟩,
    ⟨.frSet, 0xFF00, 0x4100⟩,
    ⟨.frReset, 0xFF00, 0x4200⟩,
    ⟨.frSticky, 0xFF00, 0x4300⟩,
    ⟨.frPoll, 0xFF00, 0x4400⟩ ]

/-- `W & mask == match` (R60). -/
def Row.selects (r : Row) (w : Word) : Bool := w &&& r.mask == r.pattern

/-- The row a word selects, if any; a word that selects none is reserved (R62). -/
def selectOp (w : Word) : Option Op := (opcodeTable.find? (·.selects w)).map Row.op

/-- The B-format commands (R57); all others are C-format (R56). -/
def Op.formatB : Op → Bool
  | .ckCompute => true
  | .ckVerify => true
  | .txData => true
  | .ckRender | .rxByte | .rxTimeout | .txAck | .txNak => false
  | .frInit | .frSet | .frReset | .frSticky | .frPoll => false

/-- How many operand bytes follow a word (R73). -/
def operandLength (w : Word) : Nat :=
  match selectOp w with
  | some o => if o.formatB then (argOf w).toNat else 0
  | none => 0

/-- The same on a given port: a word of another unit is reserved there and consumes nothing (R61, R62). -/
def operandLengthAt (p : Port) (w : Word) : Nat := if unitOf w = p.unit then operandLength w else 0

/-- The command of a selected row with its `arg` or its operand (R56, R57). -/
def buildInstr (o : Op) (arg : Byte) (s : List Byte) : Instr :=
  match o with
  | .ckCompute => .ckCompute s
  | .ckRender => .ckRender arg
  | .ckVerify => .ckVerify s
  | .rxByte => .rxByte arg
  | .rxTimeout => .rxTimeout
  | .txAck => .txAck
  | .txNak => .txNak arg
  | .txData => .txData s
  | .frInit => .frInit
  | .frSet => .frSet arg
  | .frReset => .frReset arg
  | .frSticky => .frSticky arg
  | .frPoll => .frPoll arg

/-! ## The decoder -/

/-- Why bytes are no command. -/
inductive Reject where
  /-- No row matches, or the port is another unit's (R61, R62). -/
  | reserved
  /-- The operand has not the length the word fixes: no transaction of the spec (R57, R73; log 10). -/
  | operandLength
  deriving DecidableEq, Repr

/-- Total on every word and every operand. -/
def decode (w : Word) (s : List Byte) : Except Reject Instr :=
  if s.length = operandLength w then
    match selectOp w with
    | some o => .ok (buildInstr o (argOf w) s)
    | none => .error .reserved
  else .error .operandLength

/-- Decoding on a port: the port binding of R61 first (60_exceptions.md R183, 1). -/
def decodeAt (p : Port) (w : Word) (s : List Byte) : Except Reject Instr :=
  if unitOf w = p.unit then decode w s
  else if s.length = 0 then .error .reserved
  else .error .operandLength

/-! ## The encoder -/

/-- The unit of a command (R55, R59). -/
def Instr.unit : Instr → BitVec 4
  | .ckCompute _ | .ckRender _ | .ckVerify _ => 1
  | .rxByte _ | .rxTimeout => 2
  | .txAck | .txNak _ | .txData _ => 3
  | .frInit | .frSet _ | .frReset _ | .frSticky _ | .frPoll _ => 4

/-- The port a command is presented on (R61); `k` chooses the instance of a reassembler command. -/
def Instr.portOn (i : Instr) (k : Nat) : Port :=
  match i with
  | .ckCompute _ | .ckRender _ | .ckVerify _ => .ck
  | .rxByte _ | .rxTimeout => .rx k
  | .txAck | .txNak _ | .txData _ => .tx
  | .frInit | .frSet _ | .frReset _ | .frSticky _ | .frPoll _ => .fr

/-- The command word, from the opcode map (R59). -/
def encodeWord : Instr → Word
  | .ckCompute s => mkWord 1 0 (BitVec.ofNat 8 s.length)
  | .ckRender v => mkWord 1 1 v
  | .ckVerify s => mkWord 1 2 (BitVec.ofNat 8 s.length)
  | .rxByte b => mkWord 2 0 b
  | .rxTimeout => mkWord 2 1 0
  | .txAck => mkWord 3 0 0
  | .txNak c => mkWord 3 1 c
  | .txData s => mkWord 3 2 (BitVec.ofNat 8 s.length)
  | .frInit => mkWord 4 0 0
  | .frSet c => mkWord 4 1 c
  | .frReset c => mkWord 4 2 c
  | .frSticky c => mkWord 4 3 c
  | .frPoll n => mkWord 4 4 n

/-- The operand bytes after the word. -/
def encodeOperand : Instr → List Byte
  | .ckCompute s | .ckVerify s | .txData s => s
  | .ckRender _ | .rxByte _ | .rxTimeout | .txAck | .txNak _ => []
  | .frInit | .frSet _ | .frReset _ | .frSticky _ | .frPoll _ => []

/-- A command as its word and its operand. -/
def encode (i : Instr) : Word × List Byte := (encodeWord i, encodeOperand i)

/-! ## Images (R76): the two bytes of the word, high byte first, then the operand; a convention of the listings (20_memory.md R42) -/

/-- The image of one command word with its operand. -/
def imageBytes (w : Word) (s : List Byte) : List Byte := w.extractLsb' 8 8 :: w.extractLsb' 0 8 :: s

/-- The image of one command. -/
def imageOf (i : Instr) : List Byte := imageBytes (encodeWord i) (encodeOperand i)

/-- One command taken from the front of an image, and the bytes after it; `none` where the image ends too early or the
word is reserved. -/
def takeInstr : List Byte → Option (Instr × List Byte)
  | hi :: lo :: rest =>
    let w : Word := hi ++ lo
    let n := operandLength w
    match decode w (rest.take n) with
    | .ok i => some (i, rest.drop n)
    | .error _ => none
  | _ => none

/-- A whole image, of at most `fuel` commands. -/
def takeImage : Nat → List Byte → Option (List Instr)
  | _, [] => some []
  | 0, _ :: _ => none
  | fuel + 1, b :: bs =>
    match takeInstr (b :: bs) with
    | some (i, rest) => (takeImage fuel rest).map (i :: ·)
    | none => none

/-! ## The host's numbering of an instruction's bits (log 14) -/

/-- The command word of an instruction whose bits are `w`: bits 15..0. -/
def tableWord (nbits w : Nat) : Word := BitVec.ofNat 16 (w % 2 ^ nbits)

/-- The operand bytes that word fixes: byte `j` is bits `16 + 8 j + 7 .. 16 + 8 j`; bits above `nbits` are 0. -/
def tableOperand (nbits w : Nat) : List Byte :=
  (List.range (operandLength (tableWord nbits w))).map fun j => BitVec.ofNat 8 ((w % 2 ^ nbits) >>> (16 + 8 * j))

/-- What the decoder reads from an instruction whose bits are `w`. -/
def decodeTableWord (nbits w : Nat) : Option Instr :=
  match decode (tableWord nbits w) (tableOperand nbits w) with
  | .ok i => some i
  | .error _ => none

end Sys2Proof
end

