-- ==== Sys2Proof/Machine/State.lean ====
section
/-! DEFINITION. All the state the spec gives the machine (10_state.md, exhaustive by R15), the records its responses are
made of (30_encoding.md R65 to R71), and the machine right after reset (R34). The hardware has no addressable memory
(10_state.md R33), so there is no memory here. -/

namespace Sys2Proof.Machine

/-! ## Reassembler state, one copy per instance (10_state.md R17 to R19) -/

/-- `rx.state` (R17); the two-bit numbers are `Phase.code` in Machine/Flags.lean, value 3 is never written. -/
inductive Phase where
  | idle
  | inframe
  | nakpend
  deriving DecidableEq, Repr

/-- One instance of the reassembler. -/
structure Rx where
  /-- `rx.state` (R17). -/
  state : Phase
  /-- `rx.count`, an 8-bit register (R18). -/
  count : BitVec 8
  /-- `rx.buf[0 .. FRAME_LEN-1]` (R19). -/
  buf : List Byte
  deriving DecidableEq, Repr

/-! ## Fault Register state (10_state.md R22 to R25) -/

/-- The pair of bitmaps of one poll channel: `fr.current[c]` (R22) and `fr.latched[c]` (R23). -/
structure Channel where
  current : Bitmap
  latched : Bitmap
  deriving DecidableEq, Repr

/-- The Fault Register: one pair per channel, one sticky mask (R24), one initialised bit (R25). -/
structure FaultReg where
  chan : List Channel
  sticky : Bitmap
  ok : Bool
  deriving DecidableEq, Repr

/-! ## Results, messages and responses -/

/-- `status` of a response (30_encoding.md R65); its numbers are `Status.code` in Machine/Flags.lean. -/
inductive Status where
  | ok
  | illegal
  | invalidCode
  | configError
  | notInit
  | tooLong
  deriving DecidableEq, Repr

/-- `err` of a reassembler result (30_encoding.md R68). -/
inductive RxError where
  | checksumMismatch
  | unknownFrameType
  | payloadTooLong
  | timeout
  deriving DecidableEq, Repr

/-- The result of a reassembler transaction (30_encoding.md R67); its record of fields with every meaningless field
zero is `Result.record` in Machine/Flags.lean (log 15). -/
inductive Result where
  | none
  | ack
  | nak (code : Option Byte)
  | data (type : Byte) (payload : List Byte)
  | error (err : RxError)
  deriving DecidableEq, Repr

/-- A mailbox message (30_encoding.md R69); `error` is the fixed sentinel and carries no error number
(42_message_formatter.md R133). -/
inductive Message where
  | ack
  | nak (code : Option Byte)
  | data (type : Byte) (payload : List Byte)
  | error
  deriving DecidableEq, Repr

/-- The response of a transaction, by port (30_encoding.md R66, R67, R70, R71). -/
inductive Response where
  | ck (status : Status) (value : BitVec 16)
  | rx (status : Status) (result : Result) (delivered : Bool)
  | tx (status : Status) (sent : Bool) (nbytes : BitVec 9)
  | fr (status : Status) (bitmap : Bitmap)
  deriving DecidableEq, Repr

/-- A response and the port that gave it. -/
structure Answer where
  port : Port
  response : Response
  deriving DecidableEq, Repr

/-! ## The reasons a step stops -/

/-- Why the machine stops. Both are raised for inputs that are no transaction of the spec, never for a command. -/
inductive Fault where
  /-- Raised by `step`, and by the reassembler's meanings, for a transaction on a port `RX[i]` that does not exist
  (20_memory.md R36: `i` in `0..NRX-1`). Safe: the hardware has no such port, so it does nothing there. -/
  | noSuchPort
  /-- Raised by `step` for an operand whose length is not the one the word fixes (30_encoding.md R57: "neither short nor
  long"). Safe: such an input cannot be presented. -/
  | operandLength
  deriving DecidableEq, Repr

/-- Why the model gives no meaning. -/
inductive Refusal where
  /-- An instruction that has no meaning yet. Safe. No arm of `exec` uses it. -/
  | notModelled (mnemonic : String)
  /-- Raised by `step` for a configuration that breaks 00_scope.md R13: "the model rejects the configuration; no
  behaviour is specified" (93_implementation_defined.md I27). Safe. -/
  | badConfiguration
  deriving DecidableEq, Repr

/-! ## The state -/

/-- The machine. `cfg` is fixed for an instance (log 1); `rx` and `fr` are the hardware's whole state (R15); the other
fields are the model's own: the environment's inputs and the history of the outputs (10_state.md R32; log 4, 5, 6). -/
structure State where
  /-- The parameters; no step changes them. -/
  cfg : Config
  /-- The `NRX` reassembler instances. -/
  rx : List Rx
  /-- The Fault Register. -/
  fr : FaultReg
  /-- The transactions still to come, in the total order of 20_memory.md R37. -/
  input : List Txn
  /-- The port of the transaction being executed. -/
  port : Port
  /-- Its sideband input (20_memory.md R53). -/
  room : Bool
  /-- Every response so far, oldest first. -/
  answers : List Answer
  /-- Every byte emitted on `WIRE` so far, oldest first. -/
  wire : List Byte
  /-- Every message emitted on some `MB[i]` so far, with its `i`, oldest first. -/
  mailbox : List (Nat × Message)
  deriving DecidableEq, Repr

/-- A reassembler after reset (R34). The buffer's bytes are DESIGN CHOICE 0: the spec leaves them unspecified and no
rule reads them (log 11). -/
def Rx.reset (c : Config) : Rx where
  state := .idle
  count := 0
  buf := List.replicate c.frameLen 0

/-- The Fault Register after reset: all clear, nothing sticky, not initialised (R34). -/
def FaultReg.reset (c : Config) : FaultReg where
  chan := List.replicate c.nchan ⟨0, 0⟩
  sticky := 0
  ok := false

/-- The hardware with parameters `c` after reset (10_state.md R34, 70_reset_and_hazards.md R200): nothing was answered or
emitted, and no transaction has been presented yet. `port` and `room` are DESIGN CHOICE (log 6). -/
def State.resetWith (c : Config) : State where
  cfg := c
  rx := List.replicate c.nrx (Rx.reset c)
  fr := FaultReg.reset c
  input := []
  port := .ck
  room := false
  answers := []
  wire := []
  mailbox := []

/-- The machine after reset, with the parameter values of the spec's vectors (log 2, 3). -/
def State.reset : State := State.resetWith Config.deployed

end Sys2Proof.Machine
end

