-- ==== Sys2Proof/Machine/Flags.lean ====
section
/-! DEFINITION. The hardware has no status flags and no condition codes (10_state.md R31); the numbered fields of its
responses take their place. Here are the numbers of `status` (30_encoding.md R65), `err` (R68), `rkind` and `mkind`
(R67, R69) and `rx.state` (10_state.md R17), and the records with every meaningless field zero. -/

namespace Sys2Proof.Machine

/-- The 2-bit value of `rx.state` (10_state.md R17); no response exposes it. -/
def Phase.code : Phase → BitVec 2
  | .idle => 0
  | .inframe => 1
  | .nakpend => 2

/-- The 4-bit `status` (30_encoding.md R65); 6..15 are never produced. -/
def Status.code : Status → BitVec 4
  | .ok => 0
  | .illegal => 1
  | .invalidCode => 2
  | .configError => 3
  | .notInit => 4
  | .tooLong => 5

/-- The 3-bit `err` (30_encoding.md R68). -/
def RxError.code : RxError → BitVec 3
  | .checksumMismatch => 1
  | .unknownFrameType => 2
  | .payloadTooLong => 3
  | .timeout => 4

/-- The record `{rkind, err, nak_has_code, nak_code, type, payload}` of 30_encoding.md R67; a mailbox message's record
(R69) is the same without `err`, whose `mkind` has `rkind`'s numbers. -/
structure Fields where
  kind : BitVec 3
  err : BitVec 3
  nakHasCode : BitVec 1
  nakCode : BitVec 8
  type : BitVec 8
  payload : List Byte
  deriving DecidableEq, Repr

/-- All fields zero, with a payload of `n` zero bytes. -/
def Fields.zero (n : Nat) : Fields where
  kind := 0
  err := 0
  nakHasCode := 0
  nakCode := 0
  type := 0
  payload := List.replicate n 0

/-- The NAK fields: the code byte where one was taken. -/
def Fields.nak (n : Nat) (code : Option Byte) : Fields :=
  match code with
  | some c => { Fields.zero n with kind := 2, nakHasCode := 1, nakCode := c }
  | none => { Fields.zero n with kind := 2 }

/-- The response record of a result (30_encoding.md R67). -/
def Result.record (n : Nat) : Result → Fields
  | .none => Fields.zero n
  | .ack => { Fields.zero n with kind := 1 }
  | .nak code => Fields.nak n code
  | .data t p => { Fields.zero n with kind := 3, type := t, payload := p }
  | .error e => { Fields.zero n with kind := 4, err := e.code }

/-- The record of a mailbox message (30_encoding.md R69), its `err` field always 0 since a message has none. -/
def Message.record (n : Nat) : Message → Fields
  | .ack => { Fields.zero n with kind := 1 }
  | .nak code => Fields.nak n code
  | .data t p => { Fields.zero n with kind := 3, type := t, payload := p }
  | .error => { Fields.zero n with kind := 4 }

/-- The first field of every response (30_encoding.md R65). -/
def Response.status : Response → Status
  | .ck st _ => st
  | .rx st _ _ => st
  | .tx st _ _ => st
  | .fr st _ => st

end Sys2Proof.Machine
end

