-- ==== Sys2Proof/Machine/Operands.lean ====
section
/-! DEFINITION. Operand assembly (30_encoding.md R58: every `arg` is an unsigned number, never extended with a sign, scaled
or shifted), fault codes as bits of a bitmap (43_fault_register.md R146, R147; 10_state.md R26), and the parts of the
byte operands. -/

namespace Sys2Proof.Machine

/-! ## Fault codes and bitmaps -/

/-- A fault code is valid in 1..64 (43_fault_register.md R147). -/
def codeInRange (code : Nat) : Bool := 1 ≤ code && code ≤ 64

/-- `1 << (k - 1)` for a code `k` in 1..64 (43_fault_register.md R146); no rule applies it to other codes. -/
def bitof (k : Nat) : Bitmap := 1#64 <<< (k - 1)

/-- Word `w` of the four-word view: bits `16 w + 15 .. 16 w` (10_state.md R26, 20_memory.md R41). -/
def wordOf (m : Bitmap) (w : Nat) : BitVec 16 := m.extractLsb' (16 * w) 16

/-! ## Byte operands -/

/-- The type byte and payload of a `CK_VERIFY` operand: `operand[0 .. L-3]` (40_checksum_codec.md R86). -/
def claimBody (operand : List Byte) : List Byte := operand.take (operand.length - 2)

/-- The first claimed digit: `operand[L-2]`. -/
def claimHigh (operand : List Byte) : Byte := operand.getD (operand.length - 2) 0

/-- The second claimed digit: `operand[L-1]`. -/
def claimLow (operand : List Byte) : Byte := operand.getD (operand.length - 1) 0

/-! ## A full frame buffer (41_frame_reassembler.md R104) -/

/-- `t = rx.buf[0]`. -/
def frameType (buf : List Byte) : Byte := buf.getD 0 0

/-- `p = rx.buf[1 .. N]`. -/
def framePayload (c : Config) (buf : List Byte) : List Byte := (buf.drop 1).take c.payloadBound

/-- `ch = rx.buf[N+1]`. -/
def frameHigh (c : Config) (buf : List Byte) : Byte := buf.getD (c.payloadBound + 1) 0

/-- `cl = rx.buf[N+2]`. -/
def frameLow (c : Config) (buf : List Byte) : Byte := buf.getD (c.payloadBound + 2) 0

end Sys2Proof.Machine
end

