-- ==== Sys2Proof/Machine/Ops.lean ====
section
/-! DEFINITION. The named operations over the state that the meanings share. There is no trap to take and none to return
from (60_exceptions.md R175, R185, R186): the one shared way an error ends a transaction is `raise`, which answers with
the error's status and writes nothing else. -/

namespace Sys2Proof.Machine

/-- The outcome of a step of this machine. -/
abbrev Out := Host.Outcome State Fault Refusal

/-! ## Inputs and outputs -/

/-- The environment's transaction `t` is presented; `rest` is what comes after it (20_memory.md R37). -/
def State.present (s : State) (t : Txn) (rest : List Txn) : State :=
  { s with input := rest, port := t.port, room := t.room }

/-- `respond r` on the port of the transaction (00_scope.md section 4). -/
def State.respond (s : State) (r : Response) : State :=
  { s with answers := s.answers ++ [⟨s.port, r⟩] }

/-- `emit bytes on WIRE`, contiguous and whole (20_memory.md R54). -/
def State.emitWire (s : State) (bytes : List Byte) : State :=
  { s with wire := s.wire ++ bytes }

/-- `emit message on MB[i]` where there is one (20_memory.md R54). -/
def State.emitMailbox (s : State) (i : Nat) (m : Option Message) : State :=
  { s with mailbox := s.mailbox ++ (m.map fun x => (i, x)).toList }

/-- The messages `MB[i]` carried, oldest first (20_memory.md R47). -/
def State.mailboxOf (s : State) (i : Nat) : List Message :=
  (s.mailbox.filter fun e => e.1 == i).map Prod.snd

/-- The responses a port gave, oldest first. -/
def State.answersOf (s : State) (p : Port) : List Response :=
  (s.answers.filter fun a => a.port == p).map Answer.response

/-! ## State updates -/

/-- Writes the state of instance `i` and of no other (10_state.md R21). -/
def State.setRx (s : State) (i : Nat) (r : Rx) : State := { s with rx := s.rx.set i r }

/-- Writes the Fault Register. -/
def State.setFr (s : State) (f : FaultReg) : State := { s with fr := f }

/-- `fr.current[c]` (10_state.md R22); reads 0 past the last channel, which no run does (log 19). -/
def FaultReg.current (f : FaultReg) (c : Nat) : Bitmap := ((f.chan[c]?).map Channel.current).getD 0

/-- `fr.latched[c]` (10_state.md R23). -/
def FaultReg.latched (f : FaultReg) (c : Nat) : Bitmap := ((f.chan[c]?).map Channel.latched).getD 0

/-- ORs a mask into `current` and `latched` of every channel (43_fault_register.md R149). -/
def FaultReg.assert (f : FaultReg) (m : Bitmap) : FaultReg :=
  { f with chan := f.chan.map fun ch => ⟨ch.current ||| m, ch.latched ||| m⟩ }

/-- ANDs a mask out of `current` of every channel and leaves `latched` (43_fault_register.md R150). -/
def FaultReg.retract (f : FaultReg) (m : Bitmap) : FaultReg :=
  { f with chan := f.chan.map fun ch => ⟨ch.current &&& ~~~m, ch.latched⟩ }

/-- ORs a mask into the sticky mask (43_fault_register.md R151). -/
def FaultReg.addSticky (f : FaultReg) (m : Bitmap) : FaultReg := { f with sticky := f.sticky ||| m }

/-- Steps 2 and 3 of a poll of channel `n`: masked clear, then re-latch (43_fault_register.md R152). -/
def FaultReg.collapse (f : FaultReg) (n : Nat) : FaultReg :=
  { f with chan := f.chan.modify n fun ch => ⟨ch.current &&& f.sticky, ch.current &&& f.sticky⟩ }

/-- All bitmaps and the sticky mask zero, initialised (43_fault_register.md R148). -/
def FaultReg.cleared (f : FaultReg) : FaultReg :=
  { chan := f.chan.map fun _ => ⟨0, 0⟩, sticky := 0, ok := true }

/-- A failed `FR_INIT`: not initialised, bitmaps unchanged (43_fault_register.md R148). -/
def FaultReg.failed (f : FaultReg) : FaultReg := { f with ok := false }

/-! ## Errors -/

/-- The response of a port with a status and every other field zero (30_encoding.md R62, R65). -/
def Response.zero : Port → Status → Response
  | .ck, st => .ck st 0
  | .rx _, st => .rx st .none false
  | .tx, st => .tx st false 0
  | .fr, st => .fr st 0

/-- `raise <Error>`: the transaction ends with that status; what was written before stays written and nothing else
happens (00_scope.md section 4, 60_exceptions.md R175). -/
def raise (st : Status) (s : State) : Out := .next (s.respond (Response.zero s.port st))

/-! ## The port a command arrived on (20_memory.md R36, 30_encoding.md R61) -/

/-- Runs a command of unit `u`; on another unit's port the word is reserved: `ILLEGAL` (R61, R62). -/
def onUnit (u : BitVec 4) (s : State) (k : Out) : Out :=
  if s.port.unit = u then k else raise .illegal s

/-- Runs a reassembler command on the instance its port selects (R61); each instance has its own state
(10_state.md R21). -/
def onInstance (s : State) (k : Nat → Rx → Out) : Out :=
  match s.port with
  | .rx i =>
    match s.rx[i]? with
    | some r => k i r
    | none => .fault .noSuchPort
  | .ck | .tx | .fr => raise .illegal s

end Sys2Proof.Machine
end

