-- ==== Sys2Proof/Machine/Codec.lean ====
section
/-! DEFINITION. The Checksum Codec (40_checksum_codec.md): four pure functions (R80 to R83) and three commands
(R84 to R86). It has no state (10_state.md R28) and checks no length against the payload bound (R88). -/

namespace Sys2Proof.Machine

/-! ## Functions -/

/-- The sum of all bytes modulo 256 (R80). -/
def compute (s : List Byte) : Byte := BitVec.ofNat 8 (s.map BitVec.toNat).sum

/-- The ASCII character of one upper-case hexadecimal digit (R81). PRESUMED: the ASCII table itself is the spec's general
knowledge (93_implementation_defined.md G2, log 22). -/
def digit (d : BitVec 4) : Byte :=
  if d.toNat ≤ 9 then BitVec.ofNat 8 (0x30 + d.toNat) else BitVec.ofNat 8 (0x41 + (d.toNat - 10))

/-- The first character: the high nibble (R81, 20_memory.md R40). -/
def renderHigh (v : Byte) : Byte := digit (v.extractLsb' 4 4)

/-- The second character: the low nibble. -/
def renderLow (v : Byte) : Byte := digit (v.extractLsb' 0 4)

/-- `render(v)` (R81). -/
def render (v : Byte) : List Byte := [renderHigh v, renderLow v]

/-- The value of a byte as one UPPER-CASE hexadecimal digit (R82). -/
def hexval (c : Byte) : Option (BitVec 4) :=
  if 0x30 ≤ c.toNat ∧ c.toNat ≤ 0x39 then some (BitVec.ofNat 4 (c.toNat - 0x30))
  else if 0x41 ≤ c.toNat ∧ c.toNat ≤ 0x46 then some (BitVec.ofNat 4 (c.toNat - 0x41 + 10))
  else none

/-- Do the claimed digits name the checksum of `s` (R83)? -/
def verify (s : List Byte) (ch cl : Byte) : Bool :=
  match hexval ch, hexval cl with
  | some h, some l => 16 * h.toNat + l.toNat == (compute s).toNat
  | _, _ => false

/-! ## Commands -/

/-- `CK_COMPUTE [s]` (R84; the minimum length R64 (a)). -/
def execCkCompute (operand : List Byte) (s : State) : Out :=
  onUnit 1 s <|
    if operand.length = 0 then raise .illegal s
    else .next (s.respond (.ck .ok ((compute operand).setWidth 16)))

/-- `CK_RENDER v` (R85): the high digit in `value[15:8]` (30_encoding.md R66). -/
def execCkRender (v : Byte) (s : State) : Out :=
  onUnit 1 s <| .next (s.respond (.ck .ok (renderHigh v ++ renderLow v)))

/-- `CK_VERIFY [s ++ [ch, cl]]` (R86; the minimum length R64 (b)). -/
def execCkVerify (operand : List Byte) (s : State) : Out :=
  onUnit 1 s <|
    if operand.length < 3 then raise .illegal s
    else
      let ok := verify (claimBody operand) (claimHigh operand) (claimLow operand)
      .next (s.respond (.ck .ok (if ok then 1 else 0)))

end Sys2Proof.Machine
end

