-- ==== Sys2Proof/Machine/FaultRegister.lean ====
section
/-! DEFINITION. The Fault Register's commands (43_fault_register.md R146 to R154); the order of their checks is
60_exceptions.md R183. -/

namespace Sys2Proof.Machine

/-- The gate of every command but `FR_INIT`: refused while `fr.ok == 0` (R153). -/
def whenInit (s : State) (k : Out) : Out := if s.fr.ok then k else raise .notInit s

/-- `raise_invalid()`: sets `FC_INVALID` in every channel, then `INVALID_CODE` (R147). -/
def raiseInvalid (s : State) : Out :=
  raise .invalidCode (s.setFr (s.fr.assert (bitof s.cfg.fcInvalid)))

/-- A command on one fault code: the checks of R183 (4, 5), then the command's own change `f` of the register. -/
def onCode (code : Byte) (s : State) (f : FaultReg → Bitmap → FaultReg) : Out :=
  onUnit 4 s <| whenInit s <|
    if codeInRange code.toNat then .next ((s.setFr (f s.fr (bitof code.toNat))).respond (.fr .ok 0))
    else raiseInvalid s

/-- `FR_INIT` (R148). -/
def execFrInit (s : State) : Out :=
  onUnit 4 s <|
    if s.cfg.frWords = 4 then .next ((s.setFr s.fr.cleared).respond (.fr .ok 0))
    else raise .configError (s.setFr s.fr.failed)

/-- `FR_SET code` (R149). -/
def execFrSet (code : Byte) (s : State) : Out := onCode code s FaultReg.assert

/-- `FR_RESET code` (R150). -/
def execFrReset (code : Byte) (s : State) : Out := onCode code s FaultReg.retract

/-- `FR_STICKY code` (R151). -/
def execFrSticky (code : Byte) (s : State) : Out := onCode code s FaultReg.addSticky

/-- `FR_POLL n` (R152): the snapshot is the `latched` before the masked clear; the channel check of R154 comes before
the `fr.ok` check (60_exceptions.md R183). -/
def execFrPoll (n : Byte) (s : State) : Out :=
  onUnit 4 s <|
    if s.cfg.nchan ≤ n.toNat then raise .illegal s
    else whenInit s <|
      .next ((s.setFr (s.fr.collapse n.toNat)).respond (.fr .ok (s.fr.latched n.toNat)))

end Sys2Proof.Machine
end

