-- ==== Sys2Proof/Machine/Formatter.lean ====
section
/-! DEFINITION. The Message Formatter (42_message_formatter.md R125 to R131, R134). It has no state (10_state.md R29). -/

namespace Sys2Proof.Machine

/-- A data frame on the wire: STX, type, payload, high digit, low digit (R128, 20_memory.md R39, R40). The bytes of `s`
are not inspected (R130) and not padded (R134). -/
def frameBytes (c : Config) (s : List Byte) : List Byte := c.stx :: (s ++ render (compute s))

/-- The capacity gate (R129): all the bytes, or none and no trace. -/
def gate (bytes : List Byte) (s : State) : Out :=
  if s.room then .next ((s.emitWire bytes).respond (.tx .ok true (BitVec.ofNat 9 bytes.length)))
  else .next (s.respond (.tx .ok false 0))

/-- `TX_ACK` (R126). -/
def execTxAck (s : State) : Out := onUnit 3 s <| gate [s.cfg.ack] s

/-- `TX_NAK c` (R127): the code is accepted and discarded. -/
def execTxNak (_code : Byte) (s : State) : Out := onUnit 3 s <| gate [s.cfg.nak] s

/-- `TX_DATA [s]` (R128, R131; 30_encoding.md R64 (c)). -/
def execTxData (operand : List Byte) (s : State) : Out :=
  onUnit 3 s <|
    if operand.length = 0 then raise .illegal s
    else if s.cfg.payloadBound + 1 < operand.length then raise .tooLong s
    else gate (frameBytes s.cfg operand) s

end Sys2Proof.Machine
end

