-- ==== Sys2Proof/Machine/Reassembler.lean ====
section
/-! DEFINITION. The Frame Reassembler (41_frame_reassembler.md) and the dispatch stage after it (42_message_formatter.md
R132, R133): the transition relation as one function of an instance's state, and the two commands. -/

namespace Sys2Proof.Machine

/-! ## The dispatch stage -/

/-- The mailbox message of a result (42_message_formatter.md R132): every error is the one sentinel (R133). -/
def messageOf : Result → Option Message
  | .none => none
  | .error _ => some .error
  | .data t p => some (.data t p)
  | .ack => some .ack
  | .nak code => some (.nak code)

/-- `dispatch(result, mb_room)`: the message that is emitted, if any; `delivered` is whether there is one
(42_message_formatter.md R132, R135). -/
def dispatch (res : Result) (room : Bool) : Option Message := if room then messageOf res else none

/-! ## Transitions (41_frame_reassembler.md R96 to R107) -/

/-- `rx.state <- IDLE; rx.count <- 0`. -/
def Rx.toIdle (r : Rx) : Rx := { r with state := .idle, count := 0 }

/-- `rx.state <- INFRAME; rx.count <- 0` (R100, R101). -/
def Rx.startFrame (r : Rx) : Rx := { r with state := .inframe, count := 0 }

/-- `rx.state <- NAKPEND; rx.count <- 0` (R99). -/
def Rx.awaitCode (r : Rx) : Rx := { r with state := .nakpend, count := 0 }

/-- `rx.buf[rx.count] <- b; rx.count <- rx.count + 1` (R103). -/
def Rx.append (r : Rx) (b : Byte) : Rx :=
  { r with buf := r.buf.set r.count.toNat b, count := r.count + 1 }

/-- The result of a full buffer: the verified logical message, digits stripped, or a mismatch (R104 to R106). -/
def frameResult (c : Config) (buf : List Byte) : Result :=
  if verify (frameType buf :: framePayload c buf) (frameHigh c buf) (frameLow c buf) then
    .data (frameType buf) (framePayload c buf)
  else .error .checksumMismatch

/-- A byte that is no control byte, in `INFRAME` (R103 to R107). The first arm is the defensive bound check of R107,
which no reachable state takes. -/
def appendByte (c : Config) (r : Rx) (b : Byte) : Rx × Result :=
  if c.frameLen ≤ r.count.toNat then (r.toIdle, .error .payloadTooLong)
  else if (r.append b).count.toNat = c.frameLen then
    ((r.append b).toIdle, frameResult c (r.append b).buf)
  else (r.append b, .none)

/-- A NAK byte in `IDLE` or `INFRAME` (R99). -/
def nakByte (c : Config) (r : Rx) : Rx × Result :=
  if c.nakCodeEn then (r.awaitCode, .none) else (r.toIdle, .nak none)

/-- The classification of a received byte, first matching case (R96, R108). -/
def receiveByte (c : Config) (r : Rx) (b : Byte) : Rx × Result :=
  if r.state = .nakpend then (r.toIdle, .nak (some b))
  else if b = c.ack then (r.toIdle, .ack)
  else if b = c.nak then nakByte c r
  else if b = c.stx then (r.startFrame, .none)
  else if r.state = .idle then (r, .error .unknownFrameType)
  else appendByte c r b

/-! ## Commands -/

/-- The end of a reassembler transaction of instance `i`: its new state, the dispatch stage, the response and the message
(R108, R109, last lines). -/
def finishRx (i : Nat) (out : Rx × Result) (s : State) : Out :=
  let msg := dispatch out.2 s.room
  .next (((s.setRx i out.1).emitMailbox i msg).respond (.rx .ok out.2 msg.isSome))

/-- `RX_BYTE b` (R108). -/
def execRxByte (b : Byte) (s : State) : Out :=
  onInstance s fun i r => finishRx i (receiveByte s.cfg r b) s

/-- `RX_TIMEOUT` (R109), the same in every state. -/
def execRxTimeout (s : State) : Out :=
  onInstance s fun i r => finishRx i (r.toIdle, .error .timeout) s

end Sys2Proof.Machine
end

