-- ==== Sys2Proof/Machine/Dispatch.lean ====
section
/-! DEFINITION. The one dispatch from a command to its meaning (30_encoding.md R59). -/

namespace Sys2Proof.Machine

def exec (i : Instr) (s : State) : Host.Outcome State Fault Refusal :=
  match i with
  | .ckCompute operand => Sys2Proof.Machine.execCkCompute operand s
  | .ckRender v => Sys2Proof.Machine.execCkRender v s
  | .ckVerify operand => Sys2Proof.Machine.execCkVerify operand s
  | .rxByte b => Sys2Proof.Machine.execRxByte b s
  | .rxTimeout => Sys2Proof.Machine.execRxTimeout s
  | .txAck => Sys2Proof.Machine.execTxAck s
  | .txNak code => Sys2Proof.Machine.execTxNak code s
  | .txData operand => Sys2Proof.Machine.execTxData operand s
  | .frInit => Sys2Proof.Machine.execFrInit s
  | .frSet code => Sys2Proof.Machine.execFrSet code s
  | .frReset code => Sys2Proof.Machine.execFrReset code s
  | .frSticky code => Sys2Proof.Machine.execFrSticky code s
  | .frPoll n => Sys2Proof.Machine.execFrPoll n s

end Sys2Proof.Machine
end

