-- ==== Sys2Proof/Machine/Fetch.lean ====
section
/-! DEFINITION. How the next transaction is taken from the environment and decoded (20_memory.md R37, 30_encoding.md R61,
R62, R73; 60_exceptions.md R183). -/

namespace Sys2Proof.Machine

/-- A word decoded on its port: a command is run, a reserved word is answered `ILLEGAL` with every other field zero and
changes nothing (30_encoding.md R62), an operand of another length is no transaction (R57, log 10). -/
def runDecoded (d : Except Reject Instr) (s : State) : Out :=
  match d with
  | .ok i => exec i s
  | .error .reserved => raise .illegal s
  | .error .operandLength => .fault .operandLength

/-- Executes one transaction on an existing port (20_memory.md R36, R37; log 9). -/
def execTxn (t : Txn) (s : State) : Out :=
  if t.port.isPresent s.cfg then runDecoded (decodeAt t.port t.word t.operand) s
  else .fault .noSuchPort

/-- One step: with no transaction presented nothing changes (70_reset_and_hazards.md R201, log 7), and a configuration
that breaks 00_scope.md R13 is refused (log 8). -/
def nextStep (s : State) : Out :=
  if s.cfg.Legal then
    match s.input with
    | [] => .next s
    | t :: rest => execTxn t (s.present t rest)
  else .refused .badConfiguration

/-- The port that takes a word's unit; a word of a reserved unit is presented on `CK`, where it is reserved as on every
port (30_encoding.md R62). -/
def portFor (w : Word) : Port :=
  if unitOf w = 2 then .rx 0
  else if unitOf w = 3 then .tx
  else if unitOf w = 4 then .fr
  else .ck

/-- The transaction of the instruction whose bits are `w`, numbered as the opcode table numbers them; its sideband bit is
1, the default of a listing (30_encoding.md R74). -/
def tableTxn (nbits w : Nat) : Txn where
  port := portFor (tableWord nbits w)
  word := tableWord nbits w
  operand := tableOperand nbits w
  room := true

/-- That transaction is the next one. -/
def presentTableWord (s : State) (nbits w : Nat) : State := { s with input := tableTxn nbits w :: s.input }

end Sys2Proof.Machine
end

