-- ==== Sys2Proof/Machine/Step.lean ====
section
/-! DEFINITION. One step of the machine: the next transaction of the environment, executed whole (20_memory.md R37), and
where the host places an instruction so that the next step runs it. -/

namespace Sys2Proof.Machine

/-- One step (70_reset_and_hazards.md R201, R217). -/
def step (s : State) : Host.Outcome State Fault Refusal := nextStep s

/-- `s` with the instruction whose bits are `w` presented next (log 13). -/
def State.withFetchWord (s : State) (nbits w : Nat) : State := presentTableWord s nbits w

end Sys2Proof.Machine
end

