-- ==== Sys2Proof/Machine/Listing.lean ====
section
/-! DEFINITION. Listings and programs (30_encoding.md R74 to R76): a listing line as data rather than as characters
(log 20), the two pseudo-operations with their expansions, and the image of a program. -/

namespace Sys2Proof.Machine

/-- The operation of a listing line: a command, or one of the two pseudo-operations (30_encoding.md R75). -/
inductive Action where
  | command (i : Instr)
  /-- `RX_CHUNK [b0, ..., bk]`: a chunk the transport delivers. -/
  | rxChunk (bytes : List Byte)
  /-- `FR_MAKE_STICKY c`, another spelling of `FR_STICKY c`. -/
  | frMakeSticky (code : Byte)
  deriving DecidableEq, Repr

/-- The commands an operation stands for, in order (30_encoding.md R75). -/
def Action.expand : Action → List Instr
  | .command i => [i]
  | .rxChunk bytes => bytes.map Instr.rxByte
  | .frMakeSticky c => [.frSticky c]

/-- `RX[i]: MNEMONIC operands ; room=r` (30_encoding.md R74). -/
structure Line where
  /-- The prefix `RX[i]:`; instance 0 when omitted. -/
  inst : Option Nat
  action : Action
  /-- `room=r`; 1 when omitted. -/
  room : Option Bool
  deriving DecidableEq, Repr

/-- One command as a transaction on the port that takes it (20_memory.md R36, R37). -/
def txnOf (k : Nat) (room : Bool) (i : Instr) : Txn where
  port := i.portOn k
  word := encodeWord i
  operand := encodeOperand i
  room := room

/-- The transactions of a line (30_encoding.md R74, R75). -/
def Line.txns (l : Line) : List Txn := l.action.expand.map (txnOf (l.inst.getD 0) (l.room.getD true))

/-- A program is a list of transactions (30_encoding.md R76). -/
def programOf (lines : List Line) : List Txn := lines.flatMap Line.txns

/-- The image of a program: the words, high byte first, and the operands; the room bits stand beside it, not in it
(30_encoding.md R76). -/
def programImage (ts : List Txn) : List Byte := ts.flatMap fun t => imageBytes t.word t.operand

/-- Received bytes of instance `k`, each with the `mb_room` bit sampled for it, as transactions in order
(20_memory.md R47). -/
def receiveTxns (k : Nat) (bytes : List (Byte × Bool)) : List Txn :=
  bytes.map fun e => txnOf k e.2 (.rxByte e.1)

end Sys2Proof.Machine
end

