-- ==== Sys2Proof/Safety.lean ====
section
/-! DEFINITION. What holds of every state a run reaches: the invariants of 10_state.md R20 and R27 and the sizes of the
state arrays; which transactions the environment may present; and the relations the whole-machine claims use. -/

namespace Sys2Proof

/-! ## What the environment may present -/

/-- A transaction of the spec: its port exists (20_memory.md R36) and its operand has exactly the length its word fixes on
that port (30_encoding.md R57, R62, R73). -/
abbrev Txn.Legal (c : Config) (t : Txn) : Prop :=
  t.port.isPresent c = true ∧ t.operand.length = operandLengthAt t.port t.word

end Sys2Proof

namespace Sys2Proof.Machine

/-! ## Invariants -/

/-- 10_state.md R20 for one instance, and the size of `rx.buf` (R19). -/
abbrev Rx.Sound (c : Config) (r : Rx) : Prop :=
  (r.state = .inframe → r.count.toNat < c.frameLen) ∧
  (r.state ≠ .inframe → r.count = 0) ∧
  (c.nakCodeEn = false → r.state ≠ .nakpend) ∧
  r.buf.length = c.frameLen

/-- Every bit of `a` is in `b`: `a & ~b == 0` (00_scope.md section 4). -/
abbrev subset (a b : Bitmap) : Prop := a &&& ~~~b = 0

/-- The first invariant of 10_state.md R27 for one channel. -/
abbrev Channel.Sound (ch : Channel) : Prop := subset ch.current ch.latched

/-- The parameters are legal (00_scope.md R13), there are `NRX` instances and `NCHAN` channels (10_state.md R17, R22), and
10_state.md R20 and R27 hold. -/
abbrev State.Inv (s : State) : Prop :=
  s.cfg.Legal ∧
  s.rx.length = s.cfg.nrx ∧
  s.fr.chan.length = s.cfg.nchan ∧
  (∀ r ∈ s.rx, r.Sound s.cfg) ∧
  (∀ ch ∈ s.fr.chan, ch.Sound)

/-- The second invariant of 10_state.md R27: the channels agree on the sticky bits of `current`. -/
abbrev FaultReg.StickyAgree (f : FaultReg) : Prop :=
  ∀ ch ∈ f.chan, ∀ dh ∈ f.chan, ch.current &&& f.sticky = dh.current &&& f.sticky

/-! ## Relations between states -/

/-- Two instances that differ at most in buffer bytes at index `>= rx.count`, which have no meaning (10_state.md R19). -/
abbrev Rx.SameLive (a b : Rx) : Prop :=
  a.state = b.state ∧ a.count = b.count ∧ a.buf.length = b.buf.length ∧
  a.buf.take a.count.toNat = b.buf.take b.count.toNat

/-- Two states that differ at most in such bytes. -/
abbrev State.SameLive (s t : State) : Prop :=
  s.cfg = t.cfg ∧ s.fr = t.fr ∧ s.input = t.input ∧ s.port = t.port ∧ s.room = t.room ∧
  s.answers = t.answers ∧ s.wire = t.wire ∧ s.mailbox = t.mailbox ∧
  List.Forall₂ Rx.SameLive s.rx t.rx

end Sys2Proof.Machine
end

