-- ==== Sys2Proof/Certificates/Slice0/Obligations.lean ====
section
/-! DEFINITION. The statements for the provers. Nothing here is about a program or a fixed input stream; every statement is
for all states (with legal parameters or the invariant as a premise where it says so). The names under `Claims` only
spell out, in numbers and records, what the rules say, so that a statement does not repeat the model's own functions. -/

open Sys2Proof Sys2Proof.Machine

namespace Sys2Proof.Claims

/-- The ASCII code of the upper-case hexadecimal digit of value `d` in 0..15 (40_checksum_codec.md R81). -/
def hexChar (d : Nat) : Nat := if d < 10 then 0x30 + d else 0x41 + (d - 10)

/-- The sum modulo 256 of a byte sequence (40_checksum_codec.md R80). -/
def sum256 (s : List Byte) : Nat := (s.map BitVec.toNat).sum % 256

/-- `hi` and `lo` are the two digits of the checksum of `s`, high digit first (40_checksum_codec.md R81, R83). -/
abbrev Digits (s : List Byte) (hi lo : Byte) : Prop :=
  hi.toNat = hexChar (sum256 s / 16) ∧ lo.toNat = hexChar (sum256 s % 16)

/-- The state after a transaction that only answers. -/
def answered (s : State) (r : Response) : State := { s with answers := s.answers ++ [⟨s.port, r⟩] }

/-- The state after a reassembler transaction of instance `i`: its new state `r`, the result answered, and the message, if
there is one, emitted when the mailbox has room (41_frame_reassembler.md R108, 42_message_formatter.md R132). -/
def afterRx (s : State) (i : Nat) (r : Rx) (res : Result) (msg : Option Message) : State :=
  { s with
    rx := s.rx.set i r
    mailbox := s.mailbox ++ (if s.room then (msg.map fun m => (i, m)).toList else [])
    answers := s.answers ++ [⟨.rx i, .rx .ok res (s.room && msg.isSome)⟩] }

/-- The state after a Fault Register transaction. -/
def afterFr (s : State) (f : FaultReg) (st : Status) (bitmap : Bitmap) : State :=
  { s with fr := f, answers := s.answers ++ [⟨.fr, .fr st bitmap⟩] }

/-- The state after a `TX` transaction that built `bytes`, at the capacity gate (42_message_formatter.md R129). -/
def afterTx (s : State) (bytes : List Byte) (n : BitVec 9) : State :=
  if s.room then
    { s with wire := s.wire ++ bytes, answers := s.answers ++ [⟨.tx, .tx .ok true n⟩] }
  else { s with answers := s.answers ++ [⟨.tx, .tx .ok false 0⟩] }

/-- The response of a port whose status is `st` and whose other fields are zero (30_encoding.md R65). -/
def zeroAnswer : Port → Status → Response
  | .ck, st => .ck st 0
  | .rx _, st => .rx st .none false
  | .tx, st => .tx st false 0
  | .fr, st => .fr st 0

/-- Command after command on the port the state has latched, the first stop ending it. -/
def inTurn : List Instr → State → Out
  | [], s => .next s
  | i :: is, s =>
    match exec i s with
    | .next t => inTurn is t
    | .fault x => .fault x
    | .refused x => .refused x

/-- Bit of fault code `k` (43_fault_register.md R146), for `1 ≤ k ≤ 64`. -/
def codeBit (k : Nat) : Bitmap := BitVec.ofNat 64 (2 ^ (k - 1))

/-- The Fault Register with `FC_INVALID` asserted in every channel (43_fault_register.md R147, `raise_invalid`). -/
def withInvalid (s : State) : FaultReg :=
  ⟨s.fr.chan.map fun ch =>
      ⟨ch.current ||| codeBit s.cfg.fcInvalid, ch.latched ||| codeBit s.cfg.fcInvalid⟩,
    s.fr.sticky, s.fr.ok⟩

/-- A code outside 1..64 (43_fault_register.md R147). -/
abbrev BadCode (code : Byte) : Prop := code.toNat = 0 ∨ 65 ≤ code.toNat

/-- What `FR_SET`, `FR_RESET` and `FR_STICKY` have in common: refused while `fr.ok` is 0; the invalid-code fault for a code
outside 1..64; otherwise the command's own new register `f` (43_fault_register.md R147, R149 to R151, R153). -/
abbrev CodeCommand (i : Instr) (s : State) (code : Byte) (f : FaultReg) : Prop :=
  (s.fr.ok = false → exec i s = .next (answered s (.fr .notInit 0))) ∧
  (s.fr.ok = true → BadCode code → exec i s = .next (afterFr s (withInvalid s) .invalidCode 0)) ∧
  (s.fr.ok = true → ¬ BadCode code → exec i s = .next (afterFr s f .ok 0))

/-- The preconditions of the Fault Register's laws (43_fault_register.md section 4): an initialised register of `NCHAN`
channels, commands on port `FR`. -/
abbrev FrReady (s : State) : Prop := s.port = .fr ∧ s.fr.ok = true ∧ s.fr.chan.length = s.cfg.nchan

end Sys2Proof.Claims

open Sys2Proof.Claims

/-! ## Encoding -/

/-- One word per row of the opcode map, written out from its bits, decodes to the command it stands for; tier 1, a check
of the reading (30_encoding.md R59; 95_test_vectors.md V60, V61, V9, V20, V22, V50, V52, V57, V40, P1, P2, P3). -/
def Obligations.WordsWrittenOutDecode : Prop :=
  decode 0b0001000000000001#16 [0x31] = .ok (.ckCompute [0x31]) ∧
  decode 0b0001000100001101#16 [] = .ok (.ckRender 0x0D) ∧
  decode 0b0001001000000011#16 [0x31, 0x33, 0x31] = .ok (.ckVerify [0x31, 0x33, 0x31]) ∧
  decode 0b0010000000110001#16 [] = .ok (.rxByte 0x31) ∧
  decode 0b0010000100000000#16 [] = .ok .rxTimeout ∧
  decode 0b0011000000000000#16 [] = .ok .txAck ∧
  decode 0b0011000100000111#16 [] = .ok (.txNak 0x07) ∧
  decode 0b0011001000000011#16 [0x31, 0x41, 0x42] = .ok (.txData [0x31, 0x41, 0x42]) ∧
  decode 0b0100000000000000#16 [] = .ok .frInit ∧
  decode 0b0100000100000101#16 [] = .ok (.frSet 5) ∧
  decode 0b0100001000000101#16 [] = .ok (.frReset 5) ∧
  decode 0b0100001100000111#16 [] = .ok (.frSticky 7) ∧
  decode 0b0100010000000001#16 [] = .ok (.frPoll 1)

/-- Every command of the hardware is read back from its word and operand, with every operand (30_encoding.md R55 to R59). -/
def Obligations.EveryCommandDecodesFromItsEncoding : Prop :=
  ∀ i : Instr, i.wf = true → decode (encode i).1 (encode i).2 = .ok i

/-- The other direction: a word and operand that decode are the encoding of what they decode to (30_encoding.md R60, R72). -/
def Obligations.EachWordHasOneMeaning : Prop :=
  ∀ (w : Word) (s : List Byte) (i : Instr), decode w s = .ok i → encode i = (w, s) ∧ i.wf = true

/-- 30_encoding.md R60: a word selects the row it matches under the row's mask, and no two rows match the same word. -/
def Obligations.NoWordMatchesTwoRows : Prop :=
  ∀ (w : Word) (r r' : Row), r ∈ opcodeTable → r' ∈ opcodeTable →
    w &&& r.mask = r.pattern → w &&& r'.mask = r'.pattern → r = r' ∧ selectOp w = some r.op

/-- 30_encoding.md R73: which words have operand bytes after them, and how many. -/
def Obligations.OperandLengthFromTheWord : Prop :=
  ∀ w : Word, operandLength w =
    if (unitOf w = 1 ∧ (opOf w = 0 ∨ opOf w = 2)) ∨ (unitOf w = 3 ∧ opOf w = 2) then w.toNat % 256 else 0

/-- 30_encoding.md R61: the word of a command is accepted on the ports of its unit and is reserved on every other port.
That `exec` of the command itself, on a foreign port, answers `ILLEGAL` (R62's answer) and does nothing is the model's choice
(log 17; no step reaches it). The reassembler instance is the port's, and no other instance changes (10_state.md R21). -/
def Obligations.CommandsAreBoundToTheirPort : Prop :=
  (∀ (i : Instr) (p : Port), i.wf = true →
    (p.unit = i.unit → decodeAt p (encodeWord i) (encodeOperand i) = .ok i) ∧
    (p.unit ≠ i.unit → decodeAt p (encodeWord i) [] = .error .reserved)) ∧
  (∀ (i : Instr) (s : State), s.port.unit ≠ i.unit → exec i s = .next (answered s (zeroAnswer s.port .illegal))) ∧
  (∀ (s u : State) (i : Instr) (k : Nat), s.port = .rx k → exec i s = .next u → ∀ j, j ≠ k → u.rx[j]? = s.rx[j]?)

/-- The image of a list of commands is read back whole (30_encoding.md R76, 20_memory.md R42). -/
def Obligations.ImageIsReadBack : Prop :=
  ∀ is : List Instr, (∀ i ∈ is, i.wf = true) → takeImage is.length (is.flatMap imageOf) = some is

/-- 30_encoding.md R75: the expansions of the two pseudo-operations. -/
def Obligations.PseudoOperationsExpand : Prop :=
  (∀ (k : Nat) (bytes : List Byte) (room : Bool),
    (Line.mk (some k) (.rxChunk bytes) (some room)).txns =
      bytes.map fun b => ⟨.rx k, 0x2000#16 ||| b.setWidth 16, [], room⟩) ∧
  (∀ (k : Option Nat) (c : Byte) (room : Option Bool),
    (Line.mk k (.frMakeSticky c) room).txns = (Line.mk k (.command (.frSticky c)) room).txns)

/-! ## The step -/

/-- A step runs the decoded command: on an existing port, with legal parameters, a step is `exec` of the command in the
state where the transaction has been taken from the environment and its port and sideband bit are latched
(20_memory.md R37; the list and the latches are the model's own, log 4 and 6). -/
def Obligations.StepRunsTheDecodedCommand : Prop :=
  ∀ (s : State) (t : Txn) (rest : List Txn) (i : Instr),
    s.cfg.Legal → s.input = t :: rest → t.port.isPresent s.cfg = true →
    decodeAt t.port t.word t.operand = .ok i →
    step s = exec i { s with input := rest, port := t.port, room := t.room }

/-- 30_encoding.md R62: the reserved words are exactly those listed, and a reserved word, or any word on another unit's
port, takes no operand, changes no state, emits nothing and is answered `ILLEGAL` with every other field zero. -/
def Obligations.ReservedWordsAreIllegalAndDoNothing : Prop :=
  (∀ w : Word, selectOp w = none ↔
    (unitOf w = 0 ∨ 5 ≤ (unitOf w).toNat) ∨
    (unitOf w = 1 ∧ 3 ≤ (opOf w).toNat) ∨
    (unitOf w = 2 ∧ 2 ≤ (opOf w).toNat) ∨ (unitOf w = 2 ∧ opOf w = 1 ∧ argOf w ≠ 0) ∨
    (unitOf w = 3 ∧ 3 ≤ (opOf w).toNat) ∨ (unitOf w = 3 ∧ opOf w = 0 ∧ argOf w ≠ 0) ∨
    (unitOf w = 4 ∧ 5 ≤ (opOf w).toNat) ∨ (unitOf w = 4 ∧ opOf w = 0 ∧ argOf w ≠ 0)) ∧
  (∀ (s : State) (t : Txn) (rest : List Txn),
    s.cfg.Legal → s.input = t :: rest → t.port.isPresent s.cfg = true →
    (selectOp t.word = none ∨ unitOf t.word ≠ t.port.unit) → t.operand = [] →
    operandLengthAt t.port t.word = 0 ∧
    step s = .next { s with
      input := rest, port := t.port, room := t.room,
      answers := s.answers ++ [⟨t.port, zeroAnswer t.port .illegal⟩] })

/-- Every transaction completes and gives exactly one response, on its own port, which leaves the transactions after it
untouched (20_memory.md R37, R50; 70_reset_and_hazards.md R217). -/
def Obligations.EveryTransactionCompletesWithOneResponse : Prop :=
  ∀ (s : State) (t : Txn) (rest : List Txn),
    s.Inv → s.input = t :: rest → t.Legal s.cfg →
    ∃ (u : State) (r : Response), step s = .next u ∧ u.input = rest ∧ u.cfg = s.cfg ∧
      u.answers = s.answers ++ [⟨t.port, r⟩]

/-- 42_message_formatter.md R136: nothing is ever emitted but by a transaction, on `WIRE` only by one of `TX`, on `MB[i]`
only by one of `RX[i]`, at most one message each; and what was emitted before stays as it is. -/
def Obligations.EmissionsComeOnlyFromTheirPort : Prop :=
  ∀ (s u : State), step s = .next u →
    (s.input = [] → u.wire = s.wire ∧ u.mailbox = s.mailbox) ∧
    ∀ (t : Txn) (rest : List Txn), s.input = t :: rest →
      (∃ bytes, u.wire = s.wire ++ bytes ∧ (bytes ≠ [] → t.port = .tx)) ∧
      (u.mailbox = s.mailbox ∨ ∃ i m, t.port = .rx i ∧ u.mailbox = s.mailbox ++ [(i, m)])

/-- The model's own choices about what is no transaction of the spec: with none presented a step changes nothing (log 7);
an illegal configuration is refused (93_implementation_defined.md I27, log 8); a transaction on a port that does not exist
and an operand of another length than the word's are faults (log 9, 10). -/
def Obligations.InputsThatAreNoTransaction : Prop :=
  (∀ s : State, s.cfg.Legal → s.input = [] → step s = .next s) ∧
  (∀ s : State, ¬ s.cfg.Legal → step s = .refused .badConfiguration) ∧
  (∀ (s : State) (t : Txn) (rest : List Txn), s.cfg.Legal → s.input = t :: rest →
    t.port.isPresent s.cfg = false → step s = .fault .noSuchPort) ∧
  (∀ (s : State) (t : Txn) (rest : List Txn), s.cfg.Legal → s.input = t :: rest →
    t.port.isPresent s.cfg = true → t.operand.length ≠ operandLengthAt t.port t.word →
    step s = .fault .operandLength)

/-! ## Reset and invariants -/

/-- 10_state.md R34: the state after reset, for all parameters (the bytes of `rx.buf` are left out: the spec leaves them
unspecified, log 11). -/
def Obligations.ResetValues : Prop :=
  ∀ c : Config,
    (∀ r ∈ (State.resetWith c).rx, r.state = .idle ∧ r.count = 0) ∧
    (∀ ch ∈ (State.resetWith c).fr.chan, ch.current = 0 ∧ ch.latched = 0) ∧
    (State.resetWith c).fr.sticky = 0 ∧ (State.resetWith c).fr.ok = false ∧
    (State.resetWith c).rx.length = c.nrx ∧ (State.resetWith c).fr.chan.length = c.nchan

/-- The invariant holds after reset, whatever the legal parameters (the reset buffer is the model's choice, log 11; the
parameters of `State.reset` are log 2 and 3). -/
def Obligations.ResetMeetsTheInvariant : Prop :=
  State.reset.Inv ∧ ∀ c : Config, c.Legal → (State.resetWith c).Inv

/-- Every step keeps the invariant of 10_state.md R20 and R27 (first part) and the sizes of the state arrays, from every
state that meets it. -/
def Obligations.EveryStepKeepsTheInvariant : Prop :=
  ∀ s u : State, s.Inv → step s = .next u → u.Inv

/-- 10_state.md R27, second invariant: every command but a late `FR_STICKY` keeps the channels in agreement on the sticky
bits of `current`, and an `FR_STICKY` keeps it while nothing is asserted. -/
def Obligations.ChannelsAgreeOnStickyFaults : Prop :=
  ∀ (s u : State) (i : Instr), exec i s = .next u → s.fr.StickyAgree →
    ((∀ code, i ≠ .frSticky code) ∨ ∀ ch ∈ s.fr.chan, ch.current = 0) → u.fr.StickyAgree

/-- No byte of a frame in progress is a control byte (41_frame_reassembler.md R96, R112), kept by every step. -/
def Obligations.FrameInProgressHoldsNoControlByte : Prop :=
  ∀ s u : State, s.Inv →
    (∀ r ∈ s.rx, r.state = .inframe → ∀ b ∈ r.buf.take r.count.toNat, s.cfg.isControl b = false) →
    step s = .next u →
    ∀ r ∈ u.rx, r.state = .inframe → ∀ b ∈ r.buf.take r.count.toNat, u.cfg.isControl b = false

/-- 41_frame_reassembler.md R107: no step from a state that meets the invariant reports `PAYLOAD_TOO_LONG`, with any status.
The first clause says what the defensive arm does (`PAYLOAD_TOO_LONG`, `IDLE`, nothing stored); that the arm is kept is the
model's choice, which R107 allows (log 18), and it is for states that no run reaches. -/
def Obligations.PayloadTooLongNeverHappens : Prop :=
  (∀ (s : State) (i : Nat) (r : Rx) (b : Byte), s.port = .rx i → s.rx[i]? = some r → r.state = .inframe →
    s.cfg.isControl b = false → s.cfg.frameLen ≤ r.count.toNat →
    exec (.rxByte b) s =
      .next (afterRx s i ⟨.idle, 0, r.buf⟩ (.error .payloadTooLong) (some .error))) ∧
  (∀ (s u : State) (p : Port) (r : Response), s.Inv → step s = .next u → u.answers = s.answers ++ [⟨p, r⟩] →
    ∀ st d, r ≠ .rx st (.error .payloadTooLong) d)

/-- 60_exceptions.md R191: no sub-block writes the Fault Register by itself; a step on any other port, whatever its result,
leaves it as it was. -/
def Obligations.OnlyFrCommandsWriteTheFaultRegister : Prop :=
  ∀ (s u : State), step s = .next u → (∀ t rest, s.input = t :: rest → t.port ≠ .fr) → u.fr = s.fr

/-- 10_state.md R21 and R48's ground: a step changes the reassembler instance of its own port at most. -/
def Obligations.InstancesArePrivate : Prop :=
  ∀ (s u : State) (j : Nat), step s = .next u → (∀ t rest, s.input = t :: rest → t.port ≠ .rx j) →
    u.rx[j]? = s.rx[j]?

/-- 70_reset_and_hazards.md R201 with 10_state.md R22 to R25: no bit of `current` is cleared except by `FR_RESET`, `FR_POLL` and
`FR_INIT`, no bit of `latched` except by `FR_POLL` and `FR_INIT`, no sticky bit except by `FR_INIT`, and `fr.ok` changes by
`FR_INIT` only. The first clause, that a step without a transaction goes on and changes nothing, is the model's choice
(log 7). -/
def Obligations.FaultsPersistUntilResetPollOrInit : Prop :=
  (∀ s u : State, s.input = [] → step s = .next u → u = s) ∧
  ∀ (s u : State) (i : Instr), exec i s = .next u →
    ((∀ c, i ≠ .frReset c) ∧ (∀ n, i ≠ .frPoll n) ∧ i ≠ .frInit →
      ∀ c, subset (s.fr.current c) (u.fr.current c)) ∧
    ((∀ n, i ≠ .frPoll n) ∧ i ≠ .frInit → ∀ c, subset (s.fr.latched c) (u.fr.latched c)) ∧
    (i ≠ .frInit → subset s.fr.sticky u.fr.sticky ∧ u.fr.ok = s.fr.ok)

/-- 20_memory.md R48: two transactions on different ports commute. Executed in either order they leave the same hardware
state, every port gives the same responses, `WIRE` carries the same bytes and every `MB[k]` the same messages. -/
def Obligations.TransactionsOnDifferentPortsCommute : Prop :=
  ∀ (s : State) (a b : Txn) (rest : List Txn),
    s.Inv → a.Legal s.cfg → b.Legal s.cfg → a.port ≠ b.port →
    ∃ u v : State,
      Host.Core.run Sys2Proof.core 2 { s with input := a :: b :: rest } = .next u ∧
      Host.Core.run Sys2Proof.core 2 { s with input := b :: a :: rest } = .next v ∧
      u.cfg = v.cfg ∧ u.rx = v.rx ∧ u.fr = v.fr ∧ u.input = v.input ∧ u.wire = v.wire ∧
      (∀ p, u.answersOf p = v.answersOf p) ∧ (∀ k, u.mailboxOf k = v.mailboxOf k)

/-- 10_state.md R19: buffer bytes at index `>= rx.count` have no meaning. Two states that differ in such bytes only take
the same steps, with the same responses and emissions, to states that again differ in such bytes only. -/
def Obligations.DeadBufferBytesAreNeverRead : Prop :=
  ∀ s t u : State, s.SameLive t → step s = .next u → ∃ v, step t = .next v ∧ u.SameLive v

/-! ## The Checksum Codec -/

/-- 40_checksum_codec.md R84. -/
def Obligations.CkComputeAnswersTheSum : Prop :=
  ∀ (s : State) (operand : List Byte), s.port = .ck →
    (operand.length = 0 → exec (.ckCompute operand) s = .next (answered s (.ck .illegal 0))) ∧
    (operand.length ≠ 0 → ∃ v : BitVec 16, v.toNat = sum256 operand ∧
      exec (.ckCompute operand) s = .next (answered s (.ck .ok v)))

/-- 40_checksum_codec.md R85: the character of the high nibble in `value[15:8]`, that of the low nibble in `value[7:0]`. -/
def Obligations.CkRenderAnswersTwoDigits : Prop :=
  ∀ (s : State) (x : Byte), s.port = .ck →
    ∃ v : BitVec 16, v.toNat = 256 * hexChar (x.toNat / 16) + hexChar (x.toNat % 16) ∧
      exec (.ckRender x) s = .next (answered s (.ck .ok v))

/-- 40_checksum_codec.md R86: too short is `ILLEGAL`; otherwise 1 exactly when the last two bytes are the two digits of the
checksum of the others (R83, equivalent form). -/
def Obligations.CkVerifyAnswersWhetherTheDigitsMatch : Prop :=
  ∀ s : State, s.port = .ck →
    (∀ operand : List Byte, operand.length < 3 →
      exec (.ckVerify operand) s = .next (answered s (.ck .illegal 0))) ∧
    (∀ (body : List Byte) (ch cl : Byte), body ≠ [] →
      exec (.ckVerify (body ++ [ch, cl])) s =
        .next (answered s (.ck .ok (if Digits body ch cl then 1 else 0))))

/-- 40_checksum_codec.md R82: the value of a byte as an upper-case digit, and that it inverts `digit`. -/
def Obligations.OnlyUpperCaseDigitsHaveAValue : Prop :=
  (∀ c : Byte,
    (0x30 ≤ c.toNat → c.toNat ≤ 0x39 → (hexval c).map BitVec.toNat = some (c.toNat - 0x30)) ∧
    (0x41 ≤ c.toNat → c.toNat ≤ 0x46 → (hexval c).map BitVec.toNat = some (c.toNat - 0x41 + 10)) ∧
    (c.toNat < 0x30 ∨ (0x39 < c.toNat ∧ c.toNat < 0x41) ∨ 0x46 < c.toNat → hexval c = none)) ∧
  (∀ d, hexval (digit d) = some d) ∧ (∀ c d, hexval c = some d → digit d = c)

/-- 40_checksum_codec.md R87: round trip, every corruption of the digits is caught, the sum can be kept running, and it
misses reorderings and errors that cancel. -/
def Obligations.CodecLaws : Prop :=
  (∀ (t : Byte) (p : List Byte),
    verify (t :: p) (renderHigh (compute (t :: p))) (renderLow (compute (t :: p))) = true) ∧
  (∀ (s : List Byte) (k : Nat), k < 8 →
    verify s (renderHigh (compute s) ^^^ (1#8 <<< k)) (renderLow (compute s)) = false ∧
    verify s (renderHigh (compute s)) (renderLow (compute s) ^^^ (1#8 <<< k)) = false) ∧
  (∀ (s : List Byte) (ch cl : Byte), [ch, cl] ≠ render (compute s) → verify s ch cl = false) ∧
  (∀ (s : List Byte) (b : Byte), (compute (s ++ [b])).toNat = ((compute s).toNat + b.toNat) % 256) ∧
  (∀ s s' : List Byte, s.Perm s' → compute s = compute s') ∧
  (∀ (x y z : List Byte) (a b d : Byte),
    compute (x ++ [a + d] ++ y ++ [b - d] ++ z) = compute (x ++ [a] ++ y ++ [b] ++ z))

/-! ## The Frame Reassembler -/

/-- 41_frame_reassembler.md R97. -/
def Obligations.PendingNakTakesTheNextByteAsItsCode : Prop :=
  ∀ (s : State) (i : Nat) (r : Rx) (b : Byte), s.port = .rx i → s.rx[i]? = some r → r.state = .nakpend →
    exec (.rxByte b) s = .next (afterRx s i ⟨.idle, 0, r.buf⟩ (.nak (some b)) (some (.nak (some b))))

/-- 41_frame_reassembler.md R98. -/
def Obligations.AckByteGivesAckAndAbandonsTheFrame : Prop :=
  ∀ (s : State) (i : Nat) (r : Rx), s.port = .rx i → s.rx[i]? = some r → r.state ≠ .nakpend →
    exec (.rxByte s.cfg.ack) s = .next (afterRx s i ⟨.idle, 0, r.buf⟩ .ack (some .ack))

/-- 41_frame_reassembler.md R99, both variants. -/
def Obligations.NakByteGivesNakOrAwaitsItsCode : Prop :=
  ∀ (s : State) (i : Nat) (r : Rx), s.cfg.ControlsDiffer → s.port = .rx i → s.rx[i]? = some r →
    r.state ≠ .nakpend →
    (s.cfg.nakCodeEn = false →
      exec (.rxByte s.cfg.nak) s = .next (afterRx s i ⟨.idle, 0, r.buf⟩ (.nak none) (some (.nak none)))) ∧
    (s.cfg.nakCodeEn = true →
      exec (.rxByte s.cfg.nak) s = .next (afterRx s i ⟨.nakpend, 0, r.buf⟩ .none none))

/-- 41_frame_reassembler.md R100 and R101: a start delimiter starts a frame, or discards the one in progress without any
result and starts a fresh one. -/
def Obligations.StartDelimiterStartsAFreshFrame : Prop :=
  ∀ (s : State) (i : Nat) (r : Rx), s.cfg.ControlsDiffer → s.port = .rx i → s.rx[i]? = some r →
    r.state ≠ .nakpend →
    exec (.rxByte s.cfg.stx) s = .next (afterRx s i ⟨.inframe, 0, r.buf⟩ .none none)

/-- 41_frame_reassembler.md R102. -/
def Obligations.StrayByteInIdleIsAnUnknownFrameType : Prop :=
  ∀ (s : State) (i : Nat) (r : Rx) (b : Byte), s.port = .rx i → s.rx[i]? = some r → r.state = .idle →
    s.cfg.isControl b = false →
    exec (.rxByte b) s = .next (afterRx s i r (.error .unknownFrameType) (some .error))

/-- 41_frame_reassembler.md R103: the byte is stored at index `rx.count` and counted; while the frame is not full there is
no result. -/
def Obligations.DataByteIsAppended : Prop :=
  ∀ (s : State) (i : Nat) (r : Rx) (b : Byte), s.cfg.BoundFits → s.port = .rx i → s.rx[i]? = some r →
    r.state = .inframe → s.cfg.isControl b = false → r.count.toNat + 1 < s.cfg.frameLen →
    ∃ n : BitVec 8, n.toNat = r.count.toNat + 1 ∧
      exec (.rxByte b) s = .next (afterRx s i ⟨.inframe, n, r.buf.set r.count.toNat b⟩ .none none)

/-- 41_frame_reassembler.md R104 to R106: the byte that makes the count `FRAME_LEN` completes the frame. The type and the
`N` payload bytes are the result exactly when the two bytes after them are the digits of their checksum; the digits are
stripped; either way the instance is `IDLE` again. -/
def Obligations.FullFrameIsVerifiedAndStripped : Prop :=
  ∀ (s : State) (i : Nat) (r : Rx) (t : Byte) (p : List Byte) (ch cl : Byte),
    s.cfg.BoundFits → s.port = .rx i → s.rx[i]? = some r → r.state = .inframe → s.cfg.isControl cl = false →
    p.length = s.cfg.payloadBound → r.count.toNat + 1 = s.cfg.payloadBound + 3 →
    r.buf.set r.count.toNat cl = t :: (p ++ [ch, cl]) →
    exec (.rxByte cl) s = .next
      (if Digits (t :: p) ch cl then
        afterRx s i ⟨.idle, 0, t :: (p ++ [ch, cl])⟩ (.data t p) (some (.data t p))
      else afterRx s i ⟨.idle, 0, t :: (p ++ [ch, cl])⟩ (.error .checksumMismatch) (some .error))

/-- 41_frame_reassembler.md R109: `TIMEOUT` and `IDLE` from every state. -/
def Obligations.TimeoutDiscardsThePartialFrame : Prop :=
  ∀ (s : State) (i : Nat) (r : Rx), s.port = .rx i → s.rx[i]? = some r →
    exec .rxTimeout s = .next (afterRx s i ⟨.idle, 0, r.buf⟩ (.error .timeout) (some .error))

/-- 41_frame_reassembler.md R110: after every result the instance is `IDLE` with count 0; without one it leaves `IDLE` only
by a start delimiter, and by a NAK when `NAK_CODE_EN` is 1. -/
def Obligations.ResultsLeaveTheInstanceIdle : Prop :=
  ∀ (s u : State) (i : Nat) (r r' : Rx) (c : Instr) (res : Result) (d : Bool),
    s.Inv → s.port = .rx i → s.rx[i]? = some r → exec c s = .next u → u.rx[i]? = some r' →
    u.answers = s.answers ++ [⟨.rx i, .rx .ok res d⟩] →
    (res ≠ .none → r'.state = .idle ∧ r'.count = 0) ∧
    (res = .none → r.state = .idle → r'.state ≠ .idle →
      (c = .rxByte s.cfg.stx ∧ r'.state = .inframe) ∨
      (c = .rxByte s.cfg.nak ∧ s.cfg.nakCodeEn = true ∧ r'.state = .nakpend))

/-- 41_frame_reassembler.md R112, first half: a `DATA` result is always the type and the `N` payload bytes of a complete
frame, none of them a control byte, whose last two bytes are the digits of their sum. -/
def Obligations.DataResultsAreVerifiedFrames : Prop :=
  ∀ (s u : State) (i : Nat) (r : Rx) (c : Instr) (t : Byte) (p : List Byte) (d : Bool),
    s.Inv → s.port = .rx i → s.rx[i]? = some r →
    (r.state = .inframe → ∀ b ∈ r.buf.take r.count.toNat, s.cfg.isControl b = false) →
    exec c s = .next u → u.answers = s.answers ++ [⟨.rx i, .rx .ok (.data t p) d⟩] →
    p.length = s.cfg.payloadBound ∧ (∀ b ∈ t :: p, s.cfg.isControl b = false) ∧
    ∃ ch cl : Byte, Digits (t :: p) ch cl ∧ c = .rxByte cl ∧ r.state = .inframe ∧
      r.buf.take r.count.toNat = t :: (p ++ [ch])

/-- 41_frame_reassembler.md R115 and 42_message_formatter.md R134: from `IDLE` and from any place of another frame (in
`NAKPEND` the first byte would be the NAK's code: `PendingNakTakesTheNextByteAsItsCode`), a start delimiter, `N + 1` bytes that are no control bytes and the two digits of their sum
give exactly one result, the `DATA` of that frame, at the last byte and nothing before it; the message goes to the mailbox
when that byte's `mb_room` is 1; the instance is `IDLE` with nothing left over, and nothing else changes. The bytes are
those `TX_DATA` emits (`TxDataEmitsTheFrame`). -/
def Obligations.AFrameAfterItsDelimiterIsReceivedWhole : Prop :=
  ∀ (s : State) (i : Nat) (r : Rx) (t : Byte) (p : List Byte) (ch cl : Byte)
    (bytes : List (Byte × Bool)) (last : Bool) (rest : List Txn),
    s.Inv → s.rx[i]? = some r → r.state ≠ .nakpend →
    p.length = s.cfg.payloadBound → (∀ b ∈ t :: p, s.cfg.isControl b = false) → Digits (t :: p) ch cl →
    (bytes ++ [(cl, last)]).map Prod.fst = s.cfg.stx :: t :: (p ++ [ch, cl]) →
    s.input = receiveTxns i (bytes ++ [(cl, last)]) ++ rest →
    Host.Core.run Sys2Proof.core (s.cfg.payloadBound + 4) s = .next { s with
      input := rest, port := .rx i, room := last,
      rx := s.rx.set i ⟨.idle, 0, t :: (p ++ [ch, cl])⟩,
      answers := s.answers ++ List.replicate (s.cfg.payloadBound + 3) ⟨.rx i, .rx .ok .none false⟩ ++
        [⟨.rx i, .rx .ok (.data t p) last⟩],
      mailbox := s.mailbox ++ (if last then [(i, .data t p)] else []) }

/-- 41_frame_reassembler.md R113: fewer than `FRAME_LEN` bytes after a start delimiter, none a control byte, never complete
a frame: no result, and the instance stays `INFRAME` with exactly those bytes. -/
def Obligations.AShortFrameNeverCompletesByItself : Prop :=
  ∀ (s : State) (i : Nat) (r : Rx) (bytes : List (Byte × Bool)) (rest : List Txn),
    s.Inv → s.rx[i]? = some r → r.state = .inframe → r.count = 0 →
    bytes.length < s.cfg.frameLen → (∀ e ∈ bytes, s.cfg.isControl e.1 = false) →
    s.input = receiveTxns i bytes ++ rest →
    ∃ (u : State) (r' : Rx), Host.Core.run Sys2Proof.core bytes.length s = .next u ∧
      u.rx = s.rx.set i r' ∧ r'.state = .inframe ∧ r'.count.toNat = bytes.length ∧
      r'.buf.take bytes.length = bytes.map Prod.fst ∧ u.input = rest ∧ u.fr = s.fr ∧ u.wire = s.wire ∧
      u.mailbox = s.mailbox ∧
      u.answers = s.answers ++ List.replicate bytes.length ⟨.rx i, .rx .ok .none false⟩

/-! ## The Message Formatter and the dispatch stage -/

/-- 42_message_formatter.md R126 with the gate R129. -/
def Obligations.TxAckEmitsTheAckByte : Prop :=
  ∀ s : State, s.port = .tx → exec .txAck s = .next (afterTx s [s.cfg.ack] 1)

/-- 42_message_formatter.md R127: one NAK byte and never a code byte, whatever the code and whatever `NAK_CODE_EN` is. -/
def Obligations.TxNakEmitsTheNakByteOnly : Prop :=
  ∀ (s : State) (code : Byte), s.port = .tx → exec (.txNak code) s = .next (afterTx s [s.cfg.nak] 1)

/-- 42_message_formatter.md R128, R129, R131: an empty operand is `ILLEGAL`, one of more than `N + 1` bytes is `TOO_LONG`,
both emit nothing; otherwise STX, the operand as it is (R130, R134) and the two digits of its sum go out, or, with no room,
nothing. -/
def Obligations.TxDataEmitsTheFrame : Prop :=
  ∀ (s : State) (operand : List Byte), s.cfg.BoundFits → s.port = .tx →
    (operand.length = 0 → exec (.txData operand) s = .next (answered s (.tx .illegal false 0))) ∧
    (s.cfg.payloadBound + 1 < operand.length →
      exec (.txData operand) s = .next (answered s (.tx .tooLong false 0))) ∧
    (operand.length ≠ 0 → operand.length ≤ s.cfg.payloadBound + 1 →
      ∃ (hi lo : Byte) (n : BitVec 9), Digits operand hi lo ∧ n.toNat = operand.length + 3 ∧
        exec (.txData operand) s = .next (afterTx s (s.cfg.stx :: (operand ++ [hi, lo])) n))

/-- 42_message_formatter.md R132 and R133: the dispatch stage as a function of the result and `mb_room`; every error is the
same sentinel. -/
def Obligations.DispatchStageTable : Prop :=
  (∀ room, dispatch .none room = none) ∧ (∀ res, dispatch res false = none) ∧
  (∀ e, dispatch (.error e) true = some .error) ∧ (∀ t p, dispatch (.data t p) true = some (.data t p)) ∧
  dispatch .ack true = some .ack ∧ (∀ code, dispatch (.nak code) true = some (.nak code)) ∧
  (∀ n, (Message.error).record n = { Fields.zero n with kind := 4 })

/-- 42_message_formatter.md R135: a dropped message is lost for good and raises nothing; the reassembler's state and its
result do not depend on `mb_room`, and `delivered` is 0 with a result other than `NONE`. -/
def Obligations.DroppedMessagesAreConsumedAllTheSame : Prop :=
  ∀ (s u v : State) (i : Nat) (c : Instr), s.port = .rx i →
    exec c { s with room := false } = .next u → exec c { s with room := true } = .next v →
    u.rx = v.rx ∧ u.fr = s.fr ∧ v.fr = s.fr ∧ u.mailbox = s.mailbox ∧ u.wire = s.wire ∧ v.wire = s.wire ∧
    ∃ (st : Status) (res : Result) (d : Bool),
      u.answers = s.answers ++ [⟨.rx i, .rx st res false⟩] ∧ v.answers = s.answers ++ [⟨.rx i, .rx st res d⟩] ∧
      (d = true ↔ st = .ok ∧ res ≠ .none)

/-- 30_encoding.md R65, R67, R68 and R69, the numbers: the fields of a result or of a mailbox message that its kind does not
use are zero. (The record of a message has no `err` field in the spec; in `Message.record` that field is 0. Log 15.) -/
def Obligations.ResponseNumbers : Prop :=
  [Status.ok, .illegal, .invalidCode, .configError, .notInit, .tooLong].map Status.code = [0, 1, 2, 3, 4, 5] ∧
  [RxError.checksumMismatch, .unknownFrameType, .payloadTooLong, .timeout].map RxError.code = [1, 2, 3, 4] ∧
  (∀ n, Result.none.record n = ⟨0, 0, 0, 0, 0, List.replicate n 0⟩) ∧
  (∀ n, Result.ack.record n = ⟨1, 0, 0, 0, 0, List.replicate n 0⟩) ∧
  (∀ n, (Result.nak none).record n = ⟨2, 0, 0, 0, 0, List.replicate n 0⟩) ∧
  (∀ n c, (Result.nak (some c)).record n = ⟨2, 0, 1, c, 0, List.replicate n 0⟩) ∧
  (∀ n t p, (Result.data t p).record n = ⟨3, 0, 0, 0, t, p⟩) ∧
  (∀ n e, (Result.error e).record n = ⟨4, e.code, 0, 0, 0, List.replicate n 0⟩) ∧
  (∀ n, Message.ack.record n = ⟨1, 0, 0, 0, 0, List.replicate n 0⟩) ∧
  (∀ n, (Message.nak none).record n = ⟨2, 0, 0, 0, 0, List.replicate n 0⟩) ∧
  (∀ n c, (Message.nak (some c)).record n = ⟨2, 0, 1, c, 0, List.replicate n 0⟩) ∧
  (∀ n t p, (Message.data t p).record n = ⟨3, 0, 0, 0, t, p⟩) ∧
  (∀ n, Message.error.record n = ⟨4, 0, 0, 0, 0, List.replicate n 0⟩)

/-! ## The Fault Register -/

/-- 10_state.md R26 and 43_fault_register.md R146: code `k` is bit `k - 1` of the bitmap and bit `(k - 1) mod 16` of word
`(k - 1) / 16`, and no other bit. -/
def Obligations.CodeBitLayout : Prop :=
  ∀ k : Nat, 1 ≤ k → k ≤ 64 →
    (∀ j, j < 64 → (bitof k).getLsbD j = decide (j = k - 1)) ∧
    (∀ w j, w < 4 → j < 16 →
      (wordOf (bitof k) w).getLsbD j = decide (w = (k - 1) / 16 ∧ j = (k - 1) % 16)) ∧
    (∀ (m : Bitmap) (w j : Nat), w < 4 → j < 16 → (wordOf m w).getLsbD j = m.getLsbD (16 * w + j))

/-- 43_fault_register.md R148, both arms. -/
def Obligations.FrInitClearsEverythingOrFails : Prop :=
  ∀ s : State, s.port = .fr →
    (s.cfg.frWords = 4 →
      exec .frInit s = .next (afterFr s ⟨s.fr.chan.map fun _ => ⟨0, 0⟩, 0, true⟩ .ok 0)) ∧
    (s.cfg.frWords ≠ 4 →
      exec .frInit s = .next (afterFr s ⟨s.fr.chan, s.fr.sticky, false⟩ .configError 0))

/-- 43_fault_register.md R149, every arm. -/
def Obligations.FrSetAssertsInEveryChannel : Prop :=
  ∀ (s : State) (code : Byte), s.port = .fr →
    CodeCommand (.frSet code) s code
      ⟨s.fr.chan.map fun ch => ⟨ch.current ||| codeBit code.toNat, ch.latched ||| codeBit code.toNat⟩,
        s.fr.sticky, s.fr.ok⟩

/-- 43_fault_register.md R150, every arm. -/
def Obligations.FrResetClearsCurrentAndNotLatched : Prop :=
  ∀ (s : State) (code : Byte), s.port = .fr →
    CodeCommand (.frReset code) s code
      ⟨s.fr.chan.map fun ch => ⟨ch.current &&& ~~~codeBit code.toNat, ch.latched⟩, s.fr.sticky, s.fr.ok⟩

/-- 43_fault_register.md R151, every arm. -/
def Obligations.FrStickyAddsToTheMask : Prop :=
  ∀ (s : State) (code : Byte), s.port = .fr →
    CodeCommand (.frSticky code) s code ⟨s.fr.chan, s.fr.sticky ||| codeBit code.toNat, s.fr.ok⟩

/-- 43_fault_register.md R152, every arm: the snapshot captured before the masked clear is returned, and only channel `n`
changes. -/
def Obligations.FrPollReturnsTheSnapshotThenMasks : Prop :=
  ∀ (s : State) (n : Byte), s.port = .fr →
    (s.cfg.nchan ≤ n.toNat → exec (.frPoll n) s = .next (answered s (.fr .illegal 0))) ∧
    (n.toNat < s.cfg.nchan → s.fr.ok = false → exec (.frPoll n) s = .next (answered s (.fr .notInit 0))) ∧
    (∀ ch : Channel, n.toNat < s.cfg.nchan → s.fr.ok = true → s.fr.chan[n.toNat]? = some ch →
      exec (.frPoll n) s = .next (afterFr s
        ⟨s.fr.chan.set n.toNat ⟨ch.current &&& s.fr.sticky, ch.current &&& s.fr.sticky⟩, s.fr.sticky, s.fr.ok⟩
        .ok ch.latched))

/-- 43_fault_register.md R147: a code outside 1..64 does, in every one of the three commands, exactly what
`FR_SET FC_INVALID` does to the state, and answers `INVALID_CODE` where that answers `OK`. -/
def Obligations.BadCodeActsAsSettingTheInvalidCode : Prop :=
  ∀ (s : State) (code fc : Byte) (i : Instr), s.cfg.InvalidCodeInRange → fc.toNat = s.cfg.fcInvalid →
    s.port = .fr → s.fr.ok = true → BadCode code →
    i = .frSet code ∨ i = .frReset code ∨ i = .frSticky code →
    exec i s = .next (afterFr s (withInvalid s) .invalidCode 0) ∧
    exec (.frSet fc) s = .next (afterFr s (withInvalid s) .ok 0)

/-- 43_fault_register.md R153 and R154 with the order of 60_exceptions.md R183 (2, 4, 5): a poll of a channel that does not
exist is `ILLEGAL` whatever `fr.ok` is; otherwise, while `fr.ok` is 0, every command but `FR_INIT` is refused and changes
nothing, a bad code included. -/
def Obligations.FrCommandsAreGated : Prop :=
  ∀ (s : State), s.port = .fr →
    (∀ n : Byte, s.cfg.nchan ≤ n.toNat → exec (.frPoll n) s = .next (answered s (.fr .illegal 0))) ∧
    (s.fr.ok = false →
      (∀ n : Byte, n.toNat < s.cfg.nchan → exec (.frPoll n) s = .next (answered s (.fr .notInit 0))) ∧
      (∀ code : Byte, exec (.frSet code) s = .next (answered s (.fr .notInit 0)) ∧
        exec (.frReset code) s = .next (answered s (.fr .notInit 0)) ∧
        exec (.frSticky code) s = .next (answered s (.fr .notInit 0))))

/-- 43_fault_register.md R155: set then poll. -/
def Obligations.SetThenPollShowsTheBit : Prop :=
  ∀ (s : State) (code n : Byte), FrReady s → 1 ≤ code.toNat → code.toNat ≤ 64 → n.toNat < s.cfg.nchan →
    ∃ u, inTurn [.frSet code, .frPoll n] s = .next u ∧
      u.answers = s.answers ++
        [⟨.fr, .fr .ok 0⟩, ⟨.fr, .fr .ok (s.fr.latched n.toNat ||| codeBit code.toNat)⟩]

/-- 43_fault_register.md R156: a non-sticky fault is shown by the first poll and not by the second, also when it was reset
before any poll. -/
def Obligations.NonStickyFaultIsShownOnce : Prop :=
  ∀ (s : State) (code n : Byte), FrReady s → 1 ≤ code.toNat → code.toNat ≤ 64 → n.toNat < s.cfg.nchan →
    s.fr.sticky &&& codeBit code.toNat = 0 →
    (∃ u a b, inTurn [.frSet code, .frPoll n, .frPoll n] s = .next u ∧
      u.answers = s.answers ++ [⟨.fr, .fr .ok 0⟩, ⟨.fr, .fr .ok a⟩, ⟨.fr, .fr .ok b⟩] ∧
      subset (codeBit code.toNat) a ∧ b &&& codeBit code.toNat = 0) ∧
    (∃ u a b, inTurn [.frSet code, .frReset code, .frPoll n, .frPoll n] s = .next u ∧
      u.answers = s.answers ++
        [⟨.fr, .fr .ok 0⟩, ⟨.fr, .fr .ok 0⟩, ⟨.fr, .fr .ok a⟩, ⟨.fr, .fr .ok b⟩] ∧
      subset (codeBit code.toNat) a ∧ b &&& codeBit code.toNat = 0)

/-- 43_fault_register.md R157: a sticky fault is shown by every poll until it is reset, then by exactly one more. -/
def Obligations.StickyFaultStaysUntilReset : Prop :=
  ∀ (s : State) (code n : Byte) (k : Nat), FrReady s → 1 ≤ code.toNat → code.toNat ≤ 64 →
    n.toNat < s.cfg.nchan →
    ∃ (u : State) (shown : List Bitmap) (a b : Bitmap),
      inTurn ([.frSticky code, .frSet code] ++ List.replicate k (.frPoll n) ++
        [.frReset code, .frPoll n, .frPoll n]) s = .next u ∧
      u.answers = s.answers ++ [⟨.fr, .fr .ok 0⟩, ⟨.fr, .fr .ok 0⟩] ++
        (shown.map fun m => ⟨.fr, .fr .ok m⟩) ++
        [⟨.fr, .fr .ok 0⟩, ⟨.fr, .fr .ok a⟩, ⟨.fr, .fr .ok b⟩] ∧
      shown.length = k ∧ (∀ m ∈ shown, subset (codeBit code.toNat) m) ∧
      subset (codeBit code.toNat) a ∧ b &&& codeBit code.toNat = 0

/-- 43_fault_register.md R158: whatever polls of other channels come between, every channel still reports a fault that was
set. -/
def Obligations.EveryChannelReportsEveryFault : Prop :=
  ∀ (s : State) (code n : Byte) (others : List Byte), FrReady s → 1 ≤ code.toNat → code.toNat ≤ 64 →
    n.toNat < s.cfg.nchan → (∀ m ∈ others, m ≠ n ∧ m.toNat < s.cfg.nchan) →
    ∃ (u v : State) (shown : Bitmap),
      inTurn (.frSet code :: others.map Instr.frPoll) s = .next u ∧ exec (.frPoll n) u = .next v ∧
      v.answers = u.answers ++ [⟨.fr, .fr .ok shown⟩] ∧ subset (codeBit code.toNat) shown

/-- 20_memory.md R45: repeated back to back, `FR_SET`, `FR_RESET`, `FR_STICKY` and `FR_INIT` change nothing the second time
and answer alike. -/
def Obligations.RegisterWritesAreIdempotent : Prop :=
  ∀ (s t : State) (i : Instr) (code : Byte),
    i = .frSet code ∨ i = .frReset code ∨ i = .frSticky code ∨ i = .frInit →
    s.port = .fr → exec i s = .next t →
    ∃ a, t.answers = s.answers ++ [a] ∧ exec i t = .next { t with answers := t.answers ++ [a] }
end

