-- ==== Sys2Proof/Laws/State.lean ====
section
/-! SUPPORT. One lemma per field per update of the state and of the Fault Register, each true by rfl. -/

namespace Sys2Proof.Machine

variable (s : State)

@[simp] theorem State.present_cfg (t : Txn) (rest : List Txn) : (s.present t rest).cfg = s.cfg := rfl
@[simp] theorem State.present_rx (t : Txn) (rest : List Txn) : (s.present t rest).rx = s.rx := rfl
@[simp] theorem State.present_fr (t : Txn) (rest : List Txn) : (s.present t rest).fr = s.fr := rfl
@[simp] theorem State.present_input (t : Txn) (rest : List Txn) : (s.present t rest).input = rest := rfl
@[simp] theorem State.present_port (t : Txn) (rest : List Txn) : (s.present t rest).port = t.port := rfl
@[simp] theorem State.present_room (t : Txn) (rest : List Txn) : (s.present t rest).room = t.room := rfl
@[simp] theorem State.present_answers (t : Txn) (rest : List Txn) : (s.present t rest).answers = s.answers := rfl
@[simp] theorem State.present_wire (t : Txn) (rest : List Txn) : (s.present t rest).wire = s.wire := rfl
@[simp] theorem State.present_mailbox (t : Txn) (rest : List Txn) : (s.present t rest).mailbox = s.mailbox := rfl

@[simp] theorem State.respond_cfg (r : Response) : (s.respond r).cfg = s.cfg := rfl
@[simp] theorem State.respond_rx (r : Response) : (s.respond r).rx = s.rx := rfl
@[simp] theorem State.respond_fr (r : Response) : (s.respond r).fr = s.fr := rfl
@[simp] theorem State.respond_input (r : Response) : (s.respond r).input = s.input := rfl
@[simp] theorem State.respond_port (r : Response) : (s.respond r).port = s.port := rfl
@[simp] theorem State.respond_room (r : Response) : (s.respond r).room = s.room := rfl
@[simp] theorem State.respond_answers (r : Response) : (s.respond r).answers = s.answers ++ [⟨s.port, r⟩] := rfl
@[simp] theorem State.respond_wire (r : Response) : (s.respond r).wire = s.wire := rfl
@[simp] theorem State.respond_mailbox (r : Response) : (s.respond r).mailbox = s.mailbox := rfl

@[simp] theorem State.emitWire_cfg (bytes : List Byte) : (s.emitWire bytes).cfg = s.cfg := rfl
@[simp] theorem State.emitWire_rx (bytes : List Byte) : (s.emitWire bytes).rx = s.rx := rfl
@[simp] theorem State.emitWire_fr (bytes : List Byte) : (s.emitWire bytes).fr = s.fr := rfl
@[simp] theorem State.emitWire_input (bytes : List Byte) : (s.emitWire bytes).input = s.input := rfl
@[simp] theorem State.emitWire_port (bytes : List Byte) : (s.emitWire bytes).port = s.port := rfl
@[simp] theorem State.emitWire_room (bytes : List Byte) : (s.emitWire bytes).room = s.room := rfl
@[simp] theorem State.emitWire_answers (bytes : List Byte) : (s.emitWire bytes).answers = s.answers := rfl
@[simp] theorem State.emitWire_wire (bytes : List Byte) : (s.emitWire bytes).wire = s.wire ++ bytes := rfl
@[simp] theorem State.emitWire_mailbox (bytes : List Byte) : (s.emitWire bytes).mailbox = s.mailbox := rfl

@[simp] theorem State.emitMailbox_cfg (i : Nat) (m : Option Message) : (s.emitMailbox i m).cfg = s.cfg := rfl
@[simp] theorem State.emitMailbox_rx (i : Nat) (m : Option Message) : (s.emitMailbox i m).rx = s.rx := rfl
@[simp] theorem State.emitMailbox_fr (i : Nat) (m : Option Message) : (s.emitMailbox i m).fr = s.fr := rfl
@[simp] theorem State.emitMailbox_input (i : Nat) (m : Option Message) : (s.emitMailbox i m).input = s.input := rfl
@[simp] theorem State.emitMailbox_port (i : Nat) (m : Option Message) : (s.emitMailbox i m).port = s.port := rfl
@[simp] theorem State.emitMailbox_room (i : Nat) (m : Option Message) : (s.emitMailbox i m).room = s.room := rfl
@[simp] theorem State.emitMailbox_answers (i : Nat) (m : Option Message) : (s.emitMailbox i m).answers = s.answers := rfl
@[simp] theorem State.emitMailbox_wire (i : Nat) (m : Option Message) : (s.emitMailbox i m).wire = s.wire := rfl
@[simp] theorem State.emitMailbox_mailbox (i : Nat) (m : Option Message) : (s.emitMailbox i m).mailbox = s.mailbox ++ (m.map fun x => (i, x)).toList := rfl

@[simp] theorem State.setRx_cfg (i : Nat) (r : Rx) : (s.setRx i r).cfg = s.cfg := rfl
@[simp] theorem State.setRx_rx (i : Nat) (r : Rx) : (s.setRx i r).rx = s.rx.set i r := rfl
@[simp] theorem State.setRx_fr (i : Nat) (r : Rx) : (s.setRx i r).fr = s.fr := rfl
@[simp] theorem State.setRx_input (i : Nat) (r : Rx) : (s.setRx i r).input = s.input := rfl
@[simp] theorem State.setRx_port (i : Nat) (r : Rx) : (s.setRx i r).port = s.port := rfl
@[simp] theorem State.setRx_room (i : Nat) (r : Rx) : (s.setRx i r).room = s.room := rfl
@[simp] theorem State.setRx_answers (i : Nat) (r : Rx) : (s.setRx i r).answers = s.answers := rfl
@[simp] theorem State.setRx_wire (i : Nat) (r : Rx) : (s.setRx i r).wire = s.wire := rfl
@[simp] theorem State.setRx_mailbox (i : Nat) (r : Rx) : (s.setRx i r).mailbox = s.mailbox := rfl

@[simp] theorem State.setFr_cfg (f : FaultReg) : (s.setFr f).cfg = s.cfg := rfl
@[simp] theorem State.setFr_rx (f : FaultReg) : (s.setFr f).rx = s.rx := rfl
@[simp] theorem State.setFr_fr (f : FaultReg) : (s.setFr f).fr = f := rfl
@[simp] theorem State.setFr_input (f : FaultReg) : (s.setFr f).input = s.input := rfl
@[simp] theorem State.setFr_port (f : FaultReg) : (s.setFr f).port = s.port := rfl
@[simp] theorem State.setFr_room (f : FaultReg) : (s.setFr f).room = s.room := rfl
@[simp] theorem State.setFr_answers (f : FaultReg) : (s.setFr f).answers = s.answers := rfl
@[simp] theorem State.setFr_wire (f : FaultReg) : (s.setFr f).wire = s.wire := rfl
@[simp] theorem State.setFr_mailbox (f : FaultReg) : (s.setFr f).mailbox = s.mailbox := rfl

@[simp] theorem State.withFetchWord_cfg (nbits w : Nat) : (s.withFetchWord nbits w).cfg = s.cfg := rfl
@[simp] theorem State.withFetchWord_rx (nbits w : Nat) : (s.withFetchWord nbits w).rx = s.rx := rfl
@[simp] theorem State.withFetchWord_fr (nbits w : Nat) : (s.withFetchWord nbits w).fr = s.fr := rfl
@[simp] theorem State.withFetchWord_input (nbits w : Nat) : (s.withFetchWord nbits w).input = tableTxn nbits w :: s.input := rfl
@[simp] theorem State.withFetchWord_port (nbits w : Nat) : (s.withFetchWord nbits w).port = s.port := rfl
@[simp] theorem State.withFetchWord_room (nbits w : Nat) : (s.withFetchWord nbits w).room = s.room := rfl
@[simp] theorem State.withFetchWord_answers (nbits w : Nat) : (s.withFetchWord nbits w).answers = s.answers := rfl
@[simp] theorem State.withFetchWord_wire (nbits w : Nat) : (s.withFetchWord nbits w).wire = s.wire := rfl
@[simp] theorem State.withFetchWord_mailbox (nbits w : Nat) : (s.withFetchWord nbits w).mailbox = s.mailbox := rfl

variable (f : FaultReg)

@[simp] theorem FaultReg.assert_chan (m : Bitmap) : (f.assert m).chan = f.chan.map fun ch => ⟨ch.current ||| m, ch.latched ||| m⟩ := rfl
@[simp] theorem FaultReg.assert_sticky (m : Bitmap) : (f.assert m).sticky = f.sticky := rfl
@[simp] theorem FaultReg.assert_ok (m : Bitmap) : (f.assert m).ok = f.ok := rfl

@[simp] theorem FaultReg.retract_chan (m : Bitmap) : (f.retract m).chan = f.chan.map fun ch => ⟨ch.current &&& ~~~m, ch.latched⟩ := rfl
@[simp] theorem FaultReg.retract_sticky (m : Bitmap) : (f.retract m).sticky = f.sticky := rfl
@[simp] theorem FaultReg.retract_ok (m : Bitmap) : (f.retract m).ok = f.ok := rfl

@[simp] theorem FaultReg.addSticky_chan (m : Bitmap) : (f.addSticky m).chan = f.chan := rfl
@[simp] theorem FaultReg.addSticky_sticky (m : Bitmap) : (f.addSticky m).sticky = f.sticky ||| m := rfl
@[simp] theorem FaultReg.addSticky_ok (m : Bitmap) : (f.addSticky m).ok = f.ok := rfl

@[simp] theorem FaultReg.collapse_chan (n : Nat) : (f.collapse n).chan = f.chan.modify n fun ch => ⟨ch.current &&& f.sticky, ch.current &&& f.sticky⟩ := rfl
@[simp] theorem FaultReg.collapse_sticky (n : Nat) : (f.collapse n).sticky = f.sticky := rfl
@[simp] theorem FaultReg.collapse_ok (n : Nat) : (f.collapse n).ok = f.ok := rfl

@[simp] theorem FaultReg.cleared_chan : (f.cleared).chan = f.chan.map fun _ => ⟨0, 0⟩ := rfl
@[simp] theorem FaultReg.cleared_sticky : (f.cleared).sticky = 0 := rfl
@[simp] theorem FaultReg.cleared_ok : (f.cleared).ok = true := rfl

@[simp] theorem FaultReg.failed_chan : (f.failed).chan = f.chan := rfl
@[simp] theorem FaultReg.failed_sticky : (f.failed).sticky = f.sticky := rfl
@[simp] theorem FaultReg.failed_ok : (f.failed).ok = false := rfl

variable (r : Rx)

@[simp] theorem Rx.toIdle_state : (r.toIdle).state = .idle := rfl
@[simp] theorem Rx.toIdle_count : (r.toIdle).count = 0 := rfl
@[simp] theorem Rx.toIdle_buf : (r.toIdle).buf = r.buf := rfl

@[simp] theorem Rx.startFrame_state : (r.startFrame).state = .inframe := rfl
@[simp] theorem Rx.startFrame_count : (r.startFrame).count = 0 := rfl
@[simp] theorem Rx.startFrame_buf : (r.startFrame).buf = r.buf := rfl

@[simp] theorem Rx.awaitCode_state : (r.awaitCode).state = .nakpend := rfl
@[simp] theorem Rx.awaitCode_count : (r.awaitCode).count = 0 := rfl
@[simp] theorem Rx.awaitCode_buf : (r.awaitCode).buf = r.buf := rfl

@[simp] theorem Rx.append_state (b : Byte) : (r.append b).state = r.state := rfl
@[simp] theorem Rx.append_count (b : Byte) : (r.append b).count = r.count + 1 := rfl
@[simp] theorem Rx.append_buf (b : Byte) : (r.append b).buf = r.buf.set r.count.toNat b := rfl

end Sys2Proof.Machine
end

