-- ==== Sys2Proof/Laws/Codec.lean ====
section
/-! SUPPORT. The Checksum Codec's functions: the sum as a number, and that the digits and their parse invert each other
(40_checksum_codec.md R80 to R83). -/

namespace Sys2Proof.Machine

theorem compute_toNat (s : List Byte) : (compute s).toNat = (s.map BitVec.toNat).sum % 256 := by
  simp [compute]

theorem compute_append (a b : List Byte) : compute (a ++ b) = compute a + compute b := by
  simp [compute, BitVec.ofNat_add]

theorem compute_singleton (b : Byte) : compute [b] = b := by simp [compute]

theorem hexval_digit (d : BitVec 4) : hexval (digit d) = some d := by
  revert d; decide

theorem digit_of_hexval : ∀ (c : Byte) (d : BitVec 4), hexval c = some d → digit d = c := by
  decide

theorem digit_injective {a b : BitVec 4} (h : digit a = digit b) : a = b := by
  have := hexval_digit a; rw [h, hexval_digit] at this; simpa using this.symm

theorem nibbles (v : Byte) : 16 * (v.extractLsb' 4 4).toNat + (v.extractLsb' 0 4).toNat = v.toNat := by
  revert v; decide

/-- The equivalent form of R83: the claimed digits verify exactly when they are the rendered checksum. -/
theorem verify_iff (s : List Byte) (ch cl : Byte) :
    verify s ch cl = true ↔ ch = renderHigh (compute s) ∧ cl = renderLow (compute s) := by
  constructor
  · intro h
    unfold verify at h
    split at h
    · next a b ha hb =>
      have hn := nibbles (compute s)
      have hab : 16 * a.toNat + b.toNat = (compute s).toNat := by simpa using h
      have h1 : a = (compute s).extractLsb' 4 4 := BitVec.eq_of_toNat_eq (by omega)
      have h2 : b = (compute s).extractLsb' 0 4 := BitVec.eq_of_toNat_eq (by omega)
      exact ⟨by rw [renderHigh, ← h1, digit_of_hexval _ _ ha], by rw [renderLow, ← h2, digit_of_hexval _ _ hb]⟩
    · simp at h
  · rintro ⟨rfl, rfl⟩
    simp only [verify, renderHigh, renderLow, hexval_digit, nibbles, beq_self_eq_true]

end Sys2Proof.Machine
end

