-- ==== Sys2Proof/Laws/Decode.lean ====
section
/-! SUPPORT. The fields of a command word and the row each opcode selects (30_encoding.md R55, R59, R60). -/

namespace Sys2Proof

theorem mkWord_fields : ∀ (u o : BitVec 4) (a : Byte),
    unitOf (mkWord u o a) = u ∧ opOf (mkWord u o a) = o ∧ argOf (mkWord u o a) = a := by
  intro u o a
  refine ⟨?_, ?_, ?_⟩ <;> apply BitVec.eq_of_getLsbD_eq <;> intro k hk <;>
    simp [unitOf, opOf, argOf, mkWord] <;> grind

@[simp] theorem unitOf_mkWord (u o : BitVec 4) (a : Byte) : unitOf (mkWord u o a) = u := (mkWord_fields u o a).1
@[simp] theorem opOf_mkWord (u o : BitVec 4) (a : Byte) : opOf (mkWord u o a) = o := (mkWord_fields u o a).2.1
@[simp] theorem argOf_mkWord (u o : BitVec 4) (a : Byte) : argOf (mkWord u o a) = a := (mkWord_fields u o a).2.2

/-- A word is its three fields. -/
theorem mkWord_of_fields (w : Word) : mkWord (unitOf w) (opOf w) (argOf w) = w := by
  apply BitVec.eq_of_getLsbD_eq; intro k hk
  simp [unitOf, opOf, argOf, mkWord]; grind

/-- The masks of R60, on the fields. -/
theorem mkWord_and_high (u o : BitVec 4) (a : Byte) : mkWord u o a &&& 0xFF00 = mkWord u o 0 := by
  have h : (0xFF00 : Word) = mkWord 0xF 0xF 0 := by decide
  rw [h, mkWord, mkWord, BitVec.and_append, BitVec.and_append]
  have ones : ∀ x : BitVec 4, x &&& 0xF = x := by decide
  rw [ones, ones]; simp [mkWord]

theorem mkWord_and_all (u o : BitVec 4) (a : Byte) : mkWord u o a &&& 0xFFFF = mkWord u o a := by
  show _ &&& BitVec.allOnes 16 = _
  exact BitVec.and_allOnes

theorem mkWord_inj {u o u' o' : BitVec 4} {a a' : Byte} :
    mkWord u o a = mkWord u' o' a' ↔ u = u' ∧ o = o' ∧ a = a' := by
  constructor
  · intro h
    exact ⟨by simpa using congrArg unitOf h, by simpa using congrArg opOf h, by simpa using congrArg argOf h⟩
  · rintro ⟨rfl, rfl, rfl⟩; rfl

/-- The unit number of a row (R59). -/
def Op.unit : Op → BitVec 4
  | .ckCompute | .ckRender | .ckVerify => 1
  | .rxByte | .rxTimeout => 2
  | .txAck | .txNak | .txData => 3
  | .frInit | .frSet | .frReset | .frSticky | .frPoll => 4

/-- The operation number of a row within its unit (R59). -/
def Op.number : Op → BitVec 4
  | .ckCompute | .rxByte | .txAck | .frInit => 0
  | .ckRender | .rxTimeout | .txNak | .frSet => 1
  | .ckVerify | .txData | .frReset => 2
  | .frSticky => 3
  | .frPoll => 4

/-- The rows whose `arg` must be zero (R63). -/
def Op.zeroArg : Op → Bool
  | .rxTimeout | .txAck | .frInit => true
  | .ckCompute | .ckRender | .ckVerify | .rxByte | .txNak | .txData => false
  | .frSet | .frReset | .frSticky | .frPoll => false

/-- What the rows' masks and patterns say on the fields of a word. -/
theorem selects_iff {r : Row} (hr : r ∈ opcodeTable) (w : Word) :
    r.selects w = true ↔ unitOf w = r.op.unit ∧ opOf w = r.op.number ∧ (r.op.zeroArg = true → argOf w = 0) := by
  have high : ∀ p : Word, w &&& 0xFF00 = p ↔ unitOf w = unitOf p ∧ opOf w = opOf p ∧ argOf p = 0 := by
    intro p
    conv_lhs => rw [← mkWord_of_fields w, mkWord_and_high, ← mkWord_of_fields p]
    rw [mkWord_inj, eq_comm (a := (0 : Byte))]
  have all : ∀ p : Word, w &&& 0xFFFF = p ↔ unitOf w = unitOf p ∧ opOf w = opOf p ∧ argOf w = argOf p := by
    intro p
    conv_lhs => rw [← mkWord_of_fields w, mkWord_and_all, ← mkWord_of_fields p]
    rw [mkWord_inj]
  simp only [opcodeTable, List.mem_cons, List.not_mem_nil, or_false] at hr
  rcases hr with rfl | rfl | rfl | rfl | rfl | rfl | rfl | rfl | rfl | rfl | rfl | rfl | rfl <;>
    simp only [Row.selects, beq_iff_eq, high, all] <;>
    simp [unitOf, opOf, argOf, Op.unit, Op.number, Op.zeroArg]

/-- Every row is in the table. -/
theorem row_of (o : Op) : ∃ r ∈ opcodeTable, r.op = o := by cases o <;> decide

/-- A word selects a row exactly when its fields are the row's. -/
theorem selectOp_some {w : Word} {o : Op} :
    selectOp w = some o ↔ unitOf w = o.unit ∧ opOf w = o.number ∧ (o.zeroArg = true → argOf w = 0) := by
  constructor
  · intro h
    obtain ⟨r, hf, rfl⟩ := Option.map_eq_some_iff.mp h
    exact (selects_iff (List.mem_of_find?_eq_some hf) w).mp (by simpa using List.find?_some (p := fun x : Row => x.selects w) hf)
  · intro h
    obtain ⟨r, hr, rfl⟩ := row_of o
    have hs := (selects_iff hr w).mpr h
    cases hf : opcodeTable.find? (·.selects w) with
    | none => exact absurd hs (by simpa using List.find?_eq_none.mp hf r hr)
    | some q =>
      have hq := (selects_iff (List.mem_of_find?_eq_some hf) w).mp (by simpa using List.find?_some (p := fun x : Row => x.selects w) hf)
      have same : ∀ a b : Op, a.unit = b.unit → a.number = b.number → a = b := by
        intro a b; cases a <;> cases b <;> decide
      rw [selectOp, hf, Option.map_some, same q.op r.op (hq.1.symm.trans h.1) (hq.2.1.symm.trans h.2.1)]

end Sys2Proof
end

