-- ==== Sys2Proof/Laws/Ops.lean ====
section
/-! SUPPORT. What each shared operation of Machine/Ops.lean, Machine/Formatter.lean and Machine/FaultRegister.lean can do,
said once; later proofs cite these instead of unfolding the operations. -/

namespace Sys2Proof.Machine

variable {s t : State} {k : Out} {u : BitVec 4}

theorem unit_eq_ck {p : Port} : p.unit = 1 ↔ p = .ck := by cases p <;> simp [Port.unit]
theorem unit_eq_tx {p : Port} : p.unit = 3 ↔ p = .tx := by cases p <;> simp [Port.unit]
theorem unit_eq_fr {p : Port} : p.unit = 4 ↔ p = .fr := by cases p <;> simp [Port.unit]
theorem unit_eq_rx {p : Port} : p.unit = 2 ↔ ∃ i, p = .rx i := by cases p <;> simp [Port.unit]

theorem next_inj {a b : State} (h : (Host.Outcome.next a : Out) = .next b) : b = a := by
  injection h with h; exact h.symm

theorem raise_next {st : Status} : raise st s = .next t ↔ t = s.respond (Response.zero s.port st) := by
  simp [raise, eq_comm]

theorem onUnit_same (h : s.port.unit = u) : onUnit u s k = k := by simp [onUnit, h]

theorem onUnit_other (h : s.port.unit ≠ u) : onUnit u s k = raise .illegal s := by simp [onUnit, h]

/-- A command of unit `u` runs, or answers `ILLEGAL` on another unit's port. -/
theorem onUnit_next (h : onUnit u s k = .next t) :
    (s.port.unit = u ∧ k = .next t) ∨ t = s.respond (Response.zero s.port .illegal) := by
  unfold onUnit at h
  split at h
  · exact .inl ⟨‹_›, h⟩
  · exact .inr (raise_next.mp h)

theorem onInstance_at {f : Nat → Rx → Out} {i : Nat} {r : Rx} (hp : s.port = .rx i) (hr : s.rx[i]? = some r) :
    onInstance s f = f i r := by simp [onInstance, hp, hr]

/-- A reassembler command runs on the instance its port selects, or answers `ILLEGAL` on another unit's port. -/
theorem onInstance_next {f : Nat → Rx → Out} (h : onInstance s f = .next t) :
    (∃ i r, s.port = .rx i ∧ s.rx[i]? = some r ∧ f i r = .next t) ∨
      t = s.respond (Response.zero s.port .illegal) := by
  unfold onInstance at h
  split at h
  · rename_i i hp
    split at h
    · exact .inl ⟨i, _, hp, ‹_›, h⟩
    · simp at h
  all_goals exact .inr (raise_next.mp h)

/-- The gate emits all the bytes, or nothing. -/
theorem gate_next {bytes : List Byte} (h : gate bytes s = .next t) :
    (s.room = true ∧ t = (s.emitWire bytes).respond (.tx .ok true (BitVec.ofNat 9 bytes.length))) ∨
      (s.room = false ∧ t = s.respond (.tx .ok false 0)) := by
  unfold gate at h
  split at h <;> simp at h <;> simp_all

theorem whenInit_ok (h : s.fr.ok = true) : whenInit s k = k := by simp [whenInit, h]

theorem whenInit_not (h : s.fr.ok = false) : whenInit s k = raise .notInit s := by simp [whenInit, h]

/-- What a command on one fault code does: refused, the invalid-code fault, or its own change. -/
theorem onCode_next {code : Byte} {f : FaultReg → Bitmap → FaultReg} (h : onCode code s f = .next t) :
    t = s.respond (Response.zero s.port .illegal) ∨
    (s.port = .fr ∧ t = s.respond (.fr .notInit 0)) ∨
    (s.port = .fr ∧ s.fr.ok = true ∧ codeInRange code.toNat = true ∧
      t = (s.setFr (f s.fr (bitof code.toNat))).respond (.fr .ok 0)) ∨
    (s.port = .fr ∧ s.fr.ok = true ∧ codeInRange code.toNat = false ∧
      t = (s.setFr (s.fr.assert (bitof s.cfg.fcInvalid))).respond (.fr .invalidCode 0)) := by
  obtain ⟨hp, h⟩ | h := onUnit_next h
  · have hp := unit_eq_fr.mp hp
    right
    cases hok : s.fr.ok
    · rw [whenInit_not hok, raise_next, hp] at h; exact .inl ⟨hp, h⟩
    · rw [whenInit_ok hok] at h
      right
      split at h
      · next hc => exact .inl ⟨hp, rfl, hc, by simpa [eq_comm] using h⟩
      · next hc =>
        refine .inr ⟨hp, rfl, by simpa using hc, ?_⟩
        simpa [raiseInvalid, raise_next, hp, Response.zero] using h
  · exact .inl h

/-! ## Channels -/

variable (f : FaultReg) (m : Bitmap) (n c : Nat)

/-- What each update does to one channel; an assertion is said for a channel that exists, since one past the last reads 0
before and after (log 19). -/
theorem current_assert (h : c < f.chan.length) : (f.assert m).current c = f.current c ||| m := by
  simp [FaultReg.current, h]

theorem latched_assert (h : c < f.chan.length) : (f.assert m).latched c = f.latched c ||| m := by
  simp [FaultReg.latched, h]

theorem current_retract : (f.retract m).current c = f.current c &&& ~~~m := by
  simp only [FaultReg.current, FaultReg.retract_chan, List.getElem?_map]
  cases f.chan[c]? <;> simp

@[simp] theorem latched_retract : (f.retract m).latched c = f.latched c := by
  simp only [FaultReg.latched, FaultReg.retract_chan, List.getElem?_map]
  cases f.chan[c]? <;> simp

@[simp] theorem current_addSticky : (f.addSticky m).current c = f.current c := rfl
@[simp] theorem latched_addSticky : (f.addSticky m).latched c = f.latched c := rfl

theorem current_collapse :
    (f.collapse n).current c = if c = n then f.current c &&& f.sticky else f.current c := by
  simp only [FaultReg.current, FaultReg.collapse_chan, List.getElem?_modify]
  by_cases h : n = c <;> cases f.chan[c]? <;> simp [h, eq_comm]

theorem latched_collapse :
    (f.collapse n).latched c = if c = n then f.current c &&& f.sticky else f.latched c := by
  simp only [FaultReg.current, FaultReg.latched, FaultReg.collapse_chan, List.getElem?_modify]
  by_cases h : n = c <;> cases f.chan[c]? <;> simp [h, eq_comm]

/-- No update changes the number of channels. -/
theorem length_assert : (f.assert m).chan.length = f.chan.length := by simp
theorem length_retract : (f.retract m).chan.length = f.chan.length := by simp
theorem length_collapse : (f.collapse n).chan.length = f.chan.length := by simp
theorem length_cleared : f.cleared.chan.length = f.chan.length := by simp

end Sys2Proof.Machine
end

