-- ==== Sys2Proof/Laws/Exec.lean ====
section
/-! SUPPORT. Everything a command can do, said once: the inversion lemma of `exec`. -/

namespace Sys2Proof.Machine

/-- The changes a command can make to the Fault Register (43_fault_register.md R147 to R152). -/
inductive FrEffect (s : State) : Instr → FaultReg → Prop
  | clear : FrEffect s .frInit s.fr.cleared
  | fail : FrEffect s .frInit s.fr.failed
  | set (code : Byte) : FrEffect s (.frSet code) (s.fr.assert (bitof code.toNat))
  | setInvalid (code : Byte) : FrEffect s (.frSet code) (s.fr.assert (bitof s.cfg.fcInvalid))
  | reset (code : Byte) : FrEffect s (.frReset code) (s.fr.retract (bitof code.toNat))
  | resetInvalid (code : Byte) : FrEffect s (.frReset code) (s.fr.assert (bitof s.cfg.fcInvalid))
  | sticky (code : Byte) : FrEffect s (.frSticky code) (s.fr.addSticky (bitof code.toNat))
  | stickyInvalid (code : Byte) : FrEffect s (.frSticky code) (s.fr.assert (bitof s.cfg.fcInvalid))
  | poll (n : Byte) : FrEffect s (.frPoll n) (s.fr.collapse n.toNat)

/-- What a reassembler command makes of its instance. -/
inductive RxEffect (c : Config) (r : Rx) : Instr → Rx × Result → Prop
  | byte (b : Byte) : RxEffect c r (.rxByte b) (receiveByte c r b)
  | timeout : RxEffect c r .rxTimeout (r.toIdle, .error .timeout)

/-- The state a reassembler transaction leaves. -/
def finished (i : Nat) (out : Rx × Result) (s : State) : State :=
  ((s.setRx i out.1).emitMailbox i (dispatch out.2 s.room)).respond
    (.rx .ok out.2 (dispatch out.2 s.room).isSome)

theorem finishRx_eq (i : Nat) (out : Rx × Result) (s : State) : finishRx i out s = .next (finished i out s) := rfl

section finished
variable (i : Nat) (out : Rx × Result) (s : State)
@[simp] theorem finished_cfg : (finished i out s).cfg = s.cfg := rfl
@[simp] theorem finished_rx : (finished i out s).rx = s.rx.set i out.1 := rfl
@[simp] theorem finished_fr : (finished i out s).fr = s.fr := rfl
@[simp] theorem finished_input : (finished i out s).input = s.input := rfl
@[simp] theorem finished_port : (finished i out s).port = s.port := rfl
@[simp] theorem finished_room : (finished i out s).room = s.room := rfl
@[simp] theorem finished_wire : (finished i out s).wire = s.wire := rfl
@[simp] theorem finished_answers : (finished i out s).answers =
    s.answers ++ [⟨s.port, .rx .ok out.2 (dispatch out.2 s.room).isSome⟩] := rfl
@[simp] theorem finished_mailbox : (finished i out s).mailbox =
    s.mailbox ++ ((dispatch out.2 s.room).map fun x => (i, x)).toList := rfl
end finished

/-- A response that carries no reassembler result: on `RX[i]` it has an error status and the result `NONE`. -/
def Plain (r : Response) : Prop := ∀ st res d, r = .rx st res d → st ≠ .ok ∧ res = .none

theorem plain_zero {p : Port} {st : Status} (h : st ≠ .ok) : Plain (Response.zero p st) := by
  intro st' res d; cases p <;> simp [Response.zero]
  rintro rfl rfl -; exact ⟨h, rfl⟩

/-- What most proofs use of a plain response. -/
theorem Plain.ne_ok {r : Response} (h : Plain r) (res : Result) (d : Bool) : r ≠ .rx .ok res d :=
  fun e => (h _ _ _ e).1 rfl

/-- It reports no protocol error, with any status. -/
theorem Plain.ne_error {r : Response} (h : Plain r) (st : Status) (e : RxError) (d : Bool) :
    r ≠ .rx st (.error e) d := fun he => by simpa using (h _ _ _ he).2

/-- The inversion lemma of `exec`: a command only answers (and then gives no reassembler result), or emits wire bytes on `TX`, or moves the instance of its port,
or changes the Fault Register on `FR`. -/
theorem exec_cases {i : Instr} {s t : State} (h : exec i s = .next t) :
    (∃ r, Plain r ∧ t = s.respond r) ∨
    (∃ bytes n, s.port = .tx ∧ t = (s.emitWire bytes).respond (.tx .ok true n)) ∨
    (∃ k r out, s.port = .rx k ∧ s.rx[k]? = some r ∧ RxEffect s.cfg r i out ∧ t = finished k out s) ∨
    (∃ f st m, s.port = .fr ∧ FrEffect s i f ∧ t = (s.setFr f).respond (.fr st m)) := by
  have gated : ∀ {bytes : List Byte}, s.port.unit = 3 → gate bytes s = .next t →
      (∃ r, Plain r ∧ t = s.respond r) ∨ (∃ bytes n, s.port = .tx ∧ t = (s.emitWire bytes).respond (.tx .ok true n)) := by
    intro bytes hp hg
    obtain ⟨-, rfl⟩ | ⟨-, rfl⟩ := gate_next hg
    · exact .inr ⟨_, _, unit_eq_tx.mp hp, rfl⟩
    · exact .inl ⟨_, by simp [Plain], rfl⟩
  cases i with
  | ckCompute o =>
    left
    obtain ⟨-, h⟩ | rfl := onUnit_next h
    · split at h
      · exact ⟨_, plain_zero (by simp), raise_next.mp h⟩
      · exact ⟨_, by simp [Plain], next_inj h⟩
    · exact ⟨_, plain_zero (by simp), rfl⟩
  | ckRender v =>
    left
    obtain ⟨-, h⟩ | rfl := onUnit_next h
    · exact ⟨_, by simp [Plain], next_inj h⟩
    · exact ⟨_, plain_zero (by simp), rfl⟩
  | ckVerify o =>
    left
    obtain ⟨-, h⟩ | rfl := onUnit_next h
    · split at h
      · exact ⟨_, plain_zero (by simp), raise_next.mp h⟩
      · exact ⟨_, by simp [Plain], next_inj h⟩
    · exact ⟨_, plain_zero (by simp), rfl⟩
  | rxByte b =>
    obtain ⟨k, r, hp, hr, h⟩ | rfl := onInstance_next h
    · exact .inr (.inr (.inl ⟨k, r, _, hp, hr, .byte b, next_inj h⟩))
    · exact .inl ⟨_, plain_zero (by simp), rfl⟩
  | rxTimeout =>
    obtain ⟨k, r, hp, hr, h⟩ | rfl := onInstance_next h
    · exact .inr (.inr (.inl ⟨k, r, _, hp, hr, .timeout, next_inj h⟩))
    · exact .inl ⟨_, plain_zero (by simp), rfl⟩
  | txAck =>
    obtain ⟨hp, h⟩ | rfl := onUnit_next h
    · exact (gated hp h).imp_right .inl
    · exact .inl ⟨_, plain_zero (by simp), rfl⟩
  | txNak c =>
    obtain ⟨hp, h⟩ | rfl := onUnit_next h
    · exact (gated hp h).imp_right .inl
    · exact .inl ⟨_, plain_zero (by simp), rfl⟩
  | txData o =>
    obtain ⟨hp, h⟩ | rfl := onUnit_next h
    · split at h
      · exact .inl ⟨_, plain_zero (by simp), raise_next.mp h⟩
      · split at h
        · exact .inl ⟨_, plain_zero (by simp), raise_next.mp h⟩
        · exact (gated hp h).imp_right .inl
    · exact .inl ⟨_, plain_zero (by simp), rfl⟩
  | frInit =>
    obtain ⟨hp, h⟩ | rfl := onUnit_next h
    · have hp := unit_eq_fr.mp hp
      right; right; right
      split at h
      · exact ⟨_, _, _, hp, .clear, next_inj h⟩
      · exact ⟨_, _, _, hp, .fail, by rw [raise_next] at h; simpa [hp, Response.zero] using h⟩
    · exact .inl ⟨_, plain_zero (by simp), rfl⟩
  | frSet c =>
    obtain rfl | ⟨-, rfl⟩ | ⟨hp, -, -, rfl⟩ | ⟨hp, -, -, rfl⟩ := onCode_next h
    · exact .inl ⟨_, plain_zero (by simp), rfl⟩
    · exact .inl ⟨_, by simp [Plain], rfl⟩
    · exact .inr (.inr (.inr ⟨_, _, _, hp, .set c, rfl⟩))
    · exact .inr (.inr (.inr ⟨_, _, _, hp, .setInvalid c, rfl⟩))
  | frReset c =>
    obtain rfl | ⟨-, rfl⟩ | ⟨hp, -, -, rfl⟩ | ⟨hp, -, -, rfl⟩ := onCode_next h
    · exact .inl ⟨_, plain_zero (by simp), rfl⟩
    · exact .inl ⟨_, by simp [Plain], rfl⟩
    · exact .inr (.inr (.inr ⟨_, _, _, hp, .reset c, rfl⟩))
    · exact .inr (.inr (.inr ⟨_, _, _, hp, .resetInvalid c, rfl⟩))
  | frSticky c =>
    obtain rfl | ⟨-, rfl⟩ | ⟨hp, -, -, rfl⟩ | ⟨hp, -, -, rfl⟩ := onCode_next h
    · exact .inl ⟨_, plain_zero (by simp), rfl⟩
    · exact .inl ⟨_, by simp [Plain], rfl⟩
    · exact .inr (.inr (.inr ⟨_, _, _, hp, .sticky c, rfl⟩))
    · exact .inr (.inr (.inr ⟨_, _, _, hp, .stickyInvalid c, rfl⟩))
  | frPoll n =>
    obtain ⟨hp, h⟩ | rfl := onUnit_next h
    · have hp := unit_eq_fr.mp hp
      split at h
      · exact .inl ⟨_, plain_zero (by simp), raise_next.mp h⟩
      · cases hok : s.fr.ok
        · rw [whenInit_not hok, raise_next] at h; exact .inl ⟨_, plain_zero (by simp), h⟩
        · rw [whenInit_ok hok] at h
          exact .inr (.inr (.inr ⟨_, _, _, hp, .poll n, next_inj h⟩))
    · exact .inl ⟨_, plain_zero (by simp), rfl⟩

end Sys2Proof.Machine
end

