-- ==== Sys2Proof/Laws/PerInstr.lean ====
section
/-! SUPPORT. A law stated instruction by instruction: every command's word matches the row of the opcode map that builds
that command back, and fixes the length of its operand (30_encoding.md R57, R59, R60). -/

namespace Sys2Proof.Laws.EncodesItsRow

/-- The command's word selects a row; that row with the word's `arg` and the operand is the command; and the operand of a
well-formed command has the length the word fixes. -/
def Statement (i : Instr) : Prop :=
  ∃ o, selectOp (encodeWord i) = some o ∧ buildInstr o (argOf (encodeWord i)) (encodeOperand i) = i ∧
    (i.wf = true → (encodeOperand i).length = operandLength (encodeWord i))

/-- The row selected by a word made of a row's fields. -/
theorem selected {u n : BitVec 4} {a : Byte} {o : Op} (hu : u = o.unit) (hn : n = o.number)
    (ha : o.zeroArg = true → a = 0) : selectOp (mkWord u n a) = some o :=
  selectOp_some.mpr ⟨by simpa using hu, by simpa using hn, by simpa using ha⟩

theorem operandLength_of {w : Word} {o : Op} (h : selectOp w = some o) :
    operandLength w = if o.formatB then (argOf w).toNat else 0 := by simp [operandLength, h]

/-- A format C command. -/
theorem ofC {i : Instr} {u n : BitVec 4} {a : Byte} (o : Op) (he : encodeWord i = mkWord u n a) (hu : u = o.unit)
    (hn : n = o.number) (ha : o.zeroArg = true → a = 0) (hB : o.formatB = false) (hs : encodeOperand i = [])
    (hb : buildInstr o a [] = i) : Statement i := by
  refine ⟨o, he ▸ selected hu hn ha, by rw [he, hs, argOf_mkWord, hb], fun _ => ?_⟩
  rw [hs, he, operandLength_of (selected hu hn ha), hB]; rfl

/-- A format B command. -/
theorem ofB {i : Instr} {u n : BitVec 4} {s : List Byte} (o : Op)
    (he : encodeWord i = mkWord u n (BitVec.ofNat 8 s.length)) (hu : u = o.unit) (hn : n = o.number)
    (hz : o.zeroArg = false) (hB : o.formatB = true) (hs : encodeOperand i = s) (hw : i.wf = operandFits s)
    (hb : ∀ a, buildInstr o a s = i) : Statement i := by
  have ha : o.zeroArg = true → BitVec.ofNat 8 s.length = 0 := by simp [hz]
  refine ⟨o, he ▸ selected hu hn ha, by rw [hs, hb], fun h => ?_⟩
  have : s.length ≤ 255 := by simpa [hw, operandFits] using h
  rw [hs, he, operandLength_of (selected hu hn ha), if_pos hB, argOf_mkWord, BitVec.toNat_ofNat]
  omega

variable (s : List Byte) (b : Byte)

theorem ckCompute : Statement (.ckCompute s) := ofB .ckCompute rfl rfl rfl rfl rfl rfl rfl fun _ => rfl
theorem ckRender : Statement (.ckRender b) := ofC .ckRender rfl rfl rfl nofun rfl rfl rfl
theorem ckVerify : Statement (.ckVerify s) := ofB .ckVerify rfl rfl rfl rfl rfl rfl rfl fun _ => rfl
theorem rxByte : Statement (.rxByte b) := ofC .rxByte rfl rfl rfl nofun rfl rfl rfl
theorem rxTimeout : Statement .rxTimeout := ofC .rxTimeout rfl rfl rfl (fun _ => rfl) rfl rfl rfl
theorem txAck : Statement .txAck := ofC .txAck rfl rfl rfl (fun _ => rfl) rfl rfl rfl
theorem txNak : Statement (.txNak b) := ofC .txNak rfl rfl rfl nofun rfl rfl rfl
theorem txData : Statement (.txData s) := ofB .txData rfl rfl rfl rfl rfl rfl rfl fun _ => rfl
theorem frInit : Statement .frInit := ofC .frInit rfl rfl rfl (fun _ => rfl) rfl rfl rfl
theorem frSet : Statement (.frSet b) := ofC .frSet rfl rfl rfl nofun rfl rfl rfl
theorem frReset : Statement (.frReset b) := ofC .frReset rfl rfl rfl nofun rfl rfl rfl
theorem frSticky : Statement (.frSticky b) := ofC .frSticky rfl rfl rfl nofun rfl rfl rfl
theorem frPoll : Statement (.frPoll b) := ofC .frPoll rfl rfl rfl nofun rfl rfl rfl

end Sys2Proof.Laws.EncodesItsRow
end

