-- ==== Sys2Proof/Laws/Step.lean ====
section
/-! SUPPORT. Everything a step can do, said once, and that the host's table words are fetched and run. -/

namespace Sys2Proof.Machine

/-- What a step that goes on did: nothing, a reserved word, or one decoded command. -/
theorem step_cases {s u : State} (h : step s = .next u) :
    s.cfg.Legal ∧
    ((s.input = [] ∧ u = s) ∨
    (∃ t rest, s.input = t :: rest ∧ t.port.isPresent s.cfg = true ∧
      ((∃ i, decodeAt t.port t.word t.operand = .ok i ∧ exec i (s.present t rest) = .next u) ∨
       (decodeAt t.port t.word t.operand = .error .reserved ∧
        u = (s.present t rest).respond (Response.zero t.port .illegal))))) := by
  unfold step nextStep at h
  split at h
  · refine ⟨‹_›, ?_⟩
    split at h
    · exact .inl ⟨‹_›, next_inj h⟩
    · next t rest hin =>
      right
      unfold execTxn at h
      split at h
      · next hp =>
        refine ⟨t, rest, hin, by simpa using hp, ?_⟩
        unfold runDecoded at h
        split at h
        · next i hd => exact .inl ⟨i, hd, h⟩
        · next hd => exact .inr ⟨hd, raise_next.mp h⟩
        · simp at h
      · simp at h
  · simp at h

/-- Everything a step can leave, by kind of transaction. -/
theorem step_effects {s u : State} (h : step s = .next u) :
    (s.input = [] ∧ u = s) ∨
    ∃ t rest, s.input = t :: rest ∧ t.port.isPresent s.cfg = true ∧
      ((∃ r, Plain r ∧ u = (s.present t rest).respond r) ∨
       (∃ bytes n, t.port = .tx ∧ u = ((s.present t rest).emitWire bytes).respond (.tx .ok true n)) ∨
       (∃ k r i out, t.port = .rx k ∧ s.rx[k]? = some r ∧ RxEffect s.cfg r i out ∧
        decodeAt t.port t.word t.operand = .ok i ∧ u = finished k out (s.present t rest)) ∨
       (∃ i f st m, t.port = .fr ∧ FrEffect (s.present t rest) i f ∧
        decodeAt t.port t.word t.operand = .ok i ∧ u = ((s.present t rest).setFr f).respond (.fr st m))) := by
  obtain ⟨-, ⟨h0, rfl⟩ | ⟨t, rest, hin, hp, h⟩⟩ := step_cases h
  · exact .inl ⟨h0, rfl⟩
  refine .inr ⟨t, rest, hin, hp, ?_⟩
  obtain ⟨i, hd, he⟩ | ⟨-, rfl⟩ := h
  · obtain ⟨r, hr, rfl⟩ | ⟨bs, n, hp, rfl⟩ | ⟨k, r, out, hp, hr, hx, rfl⟩ | ⟨f, st, m, hp, hf, rfl⟩ := exec_cases he
    · exact .inl ⟨r, hr, rfl⟩
    · exact .inr (.inl ⟨bs, n, hp, rfl⟩)
    · exact .inr (.inr (.inl ⟨k, r, i, out, hp, hr, hx, hd, rfl⟩))
    · exact .inr (.inr (.inr ⟨i, f, st, m, hp, hf, hd, rfl⟩))
  · exact .inl ⟨_, plain_zero (by simp), rfl⟩

/-- A step on a decoded command, the other way round. -/
theorem step_of_decoded {s : State} {t : Txn} {rest : List Txn} {i : Instr} (hl : s.cfg.Legal)
    (hin : s.input = t :: rest) (hp : t.port.isPresent s.cfg = true)
    (hd : decodeAt t.port t.word t.operand = .ok i) : step s = exec i (s.present t rest) := by
  have hp' : t.port.isPresent (s.present t rest).cfg = true := hp
  rw [step, nextStep, if_pos hl, hin]
  show execTxn t (s.present t rest) = _
  rw [execTxn, if_pos hp', hd]; rfl

/-- The unit of a decoded word is its command's. -/
theorem unit_of_decode {w : Word} {ops : List Byte} {i : Instr} (h : decode w ops = .ok i) : unitOf w = i.unit := by
  unfold decode at h
  split at h
  · split at h
    · next o ho =>
      injection h with h
      subst h
      rw [(selectOp_some.mp ho).1]
      cases o <;> rfl
    · simp at h
  · simp at h

/-- What the decoder reads from a table word is what the next step runs, on the port of its unit (log 13, 14). -/
theorem step_withFetchWord {s : State} {nbits w : Nat} {i : Instr} (hl : s.cfg.Legal)
    (hd : decodeTableWord nbits w = some i) :
    step (s.withFetchWord nbits w) = exec i ((s.withFetchWord nbits w).present (tableTxn nbits w) s.input) := by
  have hd' : decode (tableWord nbits w) (tableOperand nbits w) = .ok i := by
    unfold decodeTableWord at hd
    split at hd
    · next h => rw [h]; simpa using hd
    · simp at hd
  have hu := unit_of_decode hd'
  have hpu : (portFor (tableWord nbits w)).unit = unitOf (tableWord nbits w) := by
    rw [hu]; unfold portFor; rw [hu]; cases i <;> simp [Instr.unit, Port.unit]
  refine step_of_decoded hl rfl ?_ ?_
  · show (portFor _).isPresent s.cfg = true
    have := hl.2.2.2.2.1
    unfold portFor
    repeat' split
    all_goals simp [Port.isPresent]
    omega
  · show decodeAt (portFor _) _ _ = _
    rw [decodeAt]; exact (if_pos hpu.symm).trans hd'

end Sys2Proof.Machine
end

