-- ==== Sys2Proof/Laws/Effect.lean ====
section
/-! SUPPORT. The effect of a transaction as data that depends on its own unit's part of the state only (20_memory.md R48):
two states that agree there get the same effect. -/

namespace Sys2Proof.Machine

/-- Everything one transaction does to a state, beside being consumed. -/
structure Effect where
  rx : Option (Nat × Rx)
  fr : Option FaultReg
  wire : List Byte
  mail : List (Nat × Message)
  answer : Answer

/-- The state after the effect. -/
def Effect.apply (e : Effect) (s : State) : State :=
  { s with
    rx := match e.rx with
      | some (i, r) => s.rx.set i r
      | none => s.rx
    fr := e.fr.getD s.fr
    wire := s.wire ++ e.wire
    mailbox := s.mailbox ++ e.mail
    answers := s.answers ++ [e.answer] }

/-- The effect touches nothing but what belongs to port `p`. -/
structure Effect.On (e : Effect) (p : Port) : Prop where
  rx : ∀ i r, e.rx = some (i, r) → p = .rx i
  fr : ∀ f, e.fr = some f → p = .fr
  wire : e.wire ≠ [] → p = .tx
  mail : ∀ m ∈ e.mail, p = .rx m.1
  answer : e.answer.port = p

/-- Two states that agree on the transaction in progress and on what its port may read. -/
structure SameAt (s t : State) : Prop where
  cfg : s.cfg = t.cfg
  port : s.port = t.port
  room : s.room = t.room
  rx : ∀ i, s.port = .rx i → s.rx[i]? = t.rx[i]?
  fr : s.port = .fr → s.fr = t.fr

/-- Both outcomes are one and the same effect, on the port of `s`. -/
def Alike (s t : State) (a b : Out) : Prop :=
  ∃ e : Effect, e.On s.port ∧ a = .next (e.apply s) ∧ b = .next (e.apply t)

variable {s t : State}

theorem alike_respond (h : SameAt s t) (r : Response) : Alike s t (.next (s.respond r)) (.next (t.respond r)) := by
  refine ⟨⟨none, none, [], [], ⟨s.port, r⟩⟩, ⟨by simp, by simp, by simp, by simp, rfl⟩, ?_, ?_⟩
  · simp [Effect.apply, State.respond]
  · simp [Effect.apply, State.respond, h.port]

theorem alike_raise (h : SameAt s t) (st : Status) : Alike s t (raise st s) (raise st t) := by
  unfold raise; rw [← h.port]; exact alike_respond h _

theorem alike_fr (h : SameAt s t) (hp : s.port = .fr) (f : FaultReg) (r : Response) :
    Alike s t (.next ((s.setFr f).respond r)) (.next ((t.setFr f).respond r)) := by
  refine ⟨⟨none, some f, [], [], ⟨s.port, r⟩⟩, ⟨by simp, fun _ _ => hp, by simp, by simp, rfl⟩, ?_, ?_⟩
  · simp [Effect.apply, State.respond, State.setFr]
  · simp [Effect.apply, State.respond, State.setFr, h.port]

theorem alike_gate (h : SameAt s t) (hp : s.port = .tx) (bytes : List Byte) :
    Alike s t (gate bytes s) (gate bytes t) := by
  unfold gate
  rw [← h.room]
  split
  · refine ⟨⟨none, none, bytes, [], ⟨s.port, .tx .ok true (BitVec.ofNat 9 bytes.length)⟩⟩, ⟨by simp, by simp, fun _ => hp, by simp, rfl⟩, ?_, ?_⟩
    · simp [Effect.apply, State.respond, State.emitWire]
    · simp [Effect.apply, State.respond, State.emitWire, h.port]
  · exact alike_respond h _

theorem alike_unit (h : SameAt s t) {u : BitVec 4} {a b : Out} (hab : s.port.unit = u → Alike s t a b) :
    Alike s t (onUnit u s a) (onUnit u t b) := by
  unfold onUnit
  rw [← h.port]
  split
  · exact hab ‹_›
  · exact alike_raise h _

theorem alike_instance (h : SameAt s t) (hin : ∀ i, s.port = .rx i → i < s.rx.length) (g : Rx → Rx × Result) :
    Alike s t (onInstance s fun i r => finishRx i (g r) s) (onInstance t fun i r => finishRx i (g r) t) := by
  cases hp : s.port with
  | rx i =>
    have hr := List.getElem?_eq_getElem (hin i hp)
    rw [onInstance_at hp hr, onInstance_at (h.port ▸ hp) (h.rx i hp ▸ hr)]
    generalize s.rx[i]'(hin i hp) = r
    refine ⟨⟨some (i, (g r).1), none, [], ((dispatch (g r).2 s.room).map fun m => (i, m)).toList,
      ⟨s.port, .rx .ok (g r).2 (dispatch (g r).2 s.room).isSome⟩⟩, ⟨?_, by simp, by simp, ?_, rfl⟩, ?_, ?_⟩
    · simp only [Option.some.injEq, Prod.mk.injEq]; rintro _ _ ⟨rfl, -⟩; exact hp
    · simp only [Option.mem_toList, Option.map_eq_some_iff]; rintro _ ⟨m, -, rfl⟩; exact hp
    · simp [finishRx, Effect.apply, State.respond, State.emitMailbox, State.setRx]
    · simp [finishRx, Effect.apply, State.respond, State.emitMailbox, State.setRx, h.port, h.room]
  | ck | tx | fr =>
    have ht := h.port ▸ hp
    simp only [onInstance, hp, ht]
    exact alike_raise h _

theorem alike_init (h : SameAt s t) (hp : s.port = .fr) {a b : Out} (hab : Alike s t a b) :
    Alike s t (whenInit s a) (whenInit t b) := by
  unfold whenInit
  rw [← h.fr hp]
  split
  · exact hab
  · exact alike_raise h _

theorem alike_code (h : SameAt s t) (code : Byte) (f : FaultReg → Bitmap → FaultReg) :
    Alike s t (onCode code s f) (onCode code t f) := by
  refine alike_unit h fun hu => ?_
  have hp := unit_eq_fr.mp hu
  refine alike_init h hp ?_
  rw [← h.fr hp]
  split
  · exact alike_fr h hp _ _
  · unfold raiseInvalid raise
    rw [← h.fr hp, ← h.cfg, State.setFr_port, State.setFr_port, ← h.port]
    exact alike_fr h hp _ _

/-- Every command, run in two states that agree on what its port may read, has one and the same effect, which touches
nothing that belongs to another port. -/
theorem exec_alike (i : Instr) (h : SameAt s t) (hin : ∀ k, s.port = .rx k → k < s.rx.length) :
    Alike s t (exec i s) (exec i t) := by
  cases i with
  | ckCompute o =>
    refine alike_unit h fun _ => ?_
    split
    · exact alike_raise h _
    · exact alike_respond h _
  | ckRender v => exact alike_unit h fun _ => alike_respond h _
  | ckVerify o =>
    refine alike_unit h fun _ => ?_
    split
    · exact alike_raise h _
    · exact alike_respond h _
  | rxByte b =>
    have := alike_instance h hin fun r => receiveByte s.cfg r b
    show Alike s t (onInstance s _) (onInstance t _)
    rw [← h.cfg]; exact this
  | rxTimeout => exact alike_instance h hin fun r => (r.toIdle, .error .timeout)
  | txAck =>
    refine alike_unit h fun hu => ?_
    rw [← h.cfg]; exact alike_gate h (unit_eq_tx.mp hu) _
  | txNak c =>
    refine alike_unit h fun hu => ?_
    rw [← h.cfg]; exact alike_gate h (unit_eq_tx.mp hu) _
  | txData o =>
    refine alike_unit h fun hu => ?_
    rw [← h.cfg]
    split
    · exact alike_raise h _
    · split
      · exact alike_raise h _
      · exact alike_gate h (unit_eq_tx.mp hu) _
  | frInit =>
    refine alike_unit h fun hu => ?_
    have hp := unit_eq_fr.mp hu
    rw [← h.cfg, ← h.fr hp]
    split
    · exact alike_fr h hp _ _
    · unfold raise
      rw [State.setFr_port, State.setFr_port, ← h.port]
      exact alike_fr h hp _ _
  | frSet c => exact alike_code h c _
  | frReset c => exact alike_code h c _
  | frSticky c => exact alike_code h c _
  | frPoll n =>
    refine alike_unit h fun hu => ?_
    have hp := unit_eq_fr.mp hu
    rw [← h.cfg]
    split
    · exact alike_raise h _
    · refine alike_init h hp ?_
      rw [← h.fr hp]; exact alike_fr h hp _ _

/-- A transaction the environment may present runs a command, or is a reserved word. -/
theorem decodeAt_total {p : Port} {w : Word} {ops : List Byte} (h : ops.length = operandLengthAt p w) :
    (∃ i, decodeAt p w ops = .ok i) ∨ decodeAt p w ops = .error .reserved := by
  unfold operandLengthAt at h
  unfold decodeAt
  split at h
  · rw [if_pos ‹_›, decode, if_pos h]
    split
    · exact .inl ⟨_, rfl⟩
    · exact .inr rfl
  · rw [if_neg ‹_›, if_pos h]; exact .inr rfl

/-- The same for a whole transaction: it completes in both states, with one effect, on its own port. -/
theorem execTxn_alike {x : Txn} (h : SameAt s t) (hx : s.port = x.port) (hl : x.Legal s.cfg)
    (hin : s.rx.length = s.cfg.nrx) : Alike s t (execTxn x s) (execTxn x t) := by
  have hin' : ∀ k, s.port = .rx k → k < s.rx.length := by
    intro k hk
    have := hl.1
    rw [← hx, hk] at this
    simp only [Port.isPresent, decide_eq_true_eq] at this
    omega
  have ht : x.port.isPresent t.cfg = true := h.cfg ▸ hl.1
  unfold execTxn
  rw [if_pos hl.1, if_pos ht]
  obtain ⟨i, hd⟩ | hd := decodeAt_total hl.2
  · rw [hd]; exact exec_alike i h hin'
  · rw [hd]; exact alike_raise h _

end Sys2Proof.Machine
end

