-- ==== Sys2Proof/Laws/Reassembler.lean ====
section
/-! SUPPORT. Everything a received byte can do to an instance, said once (41_frame_reassembler.md R96 to R107). -/

namespace Sys2Proof.Machine

/-- The cases of R96, with what each leaves. -/
theorem receiveByte_cases (c : Config) (r : Rx) (b : Byte) :
    (r.state = .nakpend ∧ receiveByte c r b = (r.toIdle, .nak (some b))) ∨
    (r.state ≠ .nakpend ∧ b = c.ack ∧ receiveByte c r b = (r.toIdle, .ack)) ∨
    (r.state ≠ .nakpend ∧ b = c.nak ∧ c.nakCodeEn = true ∧ receiveByte c r b = (r.awaitCode, .none)) ∨
    (r.state ≠ .nakpend ∧ b = c.nak ∧ c.nakCodeEn = false ∧ receiveByte c r b = (r.toIdle, .nak none)) ∨
    (r.state ≠ .nakpend ∧ b = c.stx ∧ receiveByte c r b = (r.startFrame, .none)) ∨
    (r.state = .idle ∧ c.isControl b = false ∧ receiveByte c r b = (r, .error .unknownFrameType)) ∨
    (r.state = .inframe ∧ c.isControl b = false ∧ receiveByte c r b = appendByte c r b) := by
  by_cases hn : r.state = .nakpend
  · exact .inl ⟨hn, by simp [receiveByte, hn]⟩
  right
  by_cases h1 : b = c.ack
  · exact .inl ⟨hn, h1, by simp [receiveByte, hn, h1]⟩
  right
  by_cases h2 : b = c.nak
  · cases he : c.nakCodeEn
    · exact .inr (.inl ⟨hn, h2, rfl, by rw [receiveByte, if_neg hn, if_neg h1, if_pos h2]; simp [nakByte, he]⟩)
    · exact .inl ⟨hn, h2, rfl, by rw [receiveByte, if_neg hn, if_neg h1, if_pos h2]; simp [nakByte, he]⟩
  right; right
  by_cases h3 : b = c.stx
  · exact .inl ⟨hn, h3, by rw [receiveByte, if_neg hn, if_neg h1, if_neg h2, if_pos h3]⟩
  right
  have hc : c.isControl b = false := by simp [Config.isControl, h1, h2, h3]
  by_cases h4 : r.state = .idle
  · exact .inl ⟨h4, hc, by rw [receiveByte, if_neg hn, if_neg h1, if_neg h2, if_neg h3, if_pos h4]⟩
  · have h5 : r.state = .inframe := by cases h : r.state <;> simp_all
    exact .inr ⟨h5, hc, by rw [receiveByte, if_neg hn, if_neg h1, if_neg h2, if_neg h3, if_neg h4]⟩

/-- The cases of an append (R103, R104, R107). -/
theorem appendByte_cases (c : Config) (r : Rx) (b : Byte) :
    (c.frameLen ≤ r.count.toNat ∧ appendByte c r b = (r.toIdle, .error .payloadTooLong)) ∨
    (r.count.toNat < c.frameLen ∧ (r.append b).count.toNat = c.frameLen ∧
      appendByte c r b = ((r.append b).toIdle, frameResult c (r.append b).buf)) ∨
    (r.count.toNat < c.frameLen ∧ (r.append b).count.toNat ≠ c.frameLen ∧
      appendByte c r b = (r.append b, .none)) := by
  unfold appendByte
  split
  · exact .inl ⟨‹_›, rfl⟩
  · right
    split
    · exact .inl ⟨by omega, ‹_›, rfl⟩
    · exact .inr ⟨by omega, ‹_›, rfl⟩

/-- The count does not wrap while it is below 255 (40_checksum_codec.md R89). -/
theorem append_count (r : Rx) (b : Byte) (h : r.count.toNat < 255) :
    (r.append b).count.toNat = r.count.toNat + 1 := by
  simp [Rx.append, BitVec.toNat_add]; omega

theorem isControl_false {c : Config} {b : Byte} (h : c.isControl b = false) :
    b ≠ c.stx ∧ b ≠ c.ack ∧ b ≠ c.nak := by
  simpa [Config.isControl, and_assoc] using h

/-- A full buffer is its four parts (R104). -/
theorem frameParts {c : Config} {t ch cl : Byte} {p : List Byte} (hp : p.length = c.payloadBound) :
    frameType (t :: (p ++ [ch, cl])) = t ∧ framePayload c (t :: (p ++ [ch, cl])) = p ∧
    frameHigh c (t :: (p ++ [ch, cl])) = ch ∧ frameLow c (t :: (p ++ [ch, cl])) = cl := by
  simp [frameType, framePayload, frameHigh, frameLow, ← hp]

end Sys2Proof.Machine
end

