-- ==== Sys2Proof/Tests/Slice0.lean ====
section
/-! SUPPORT. Tests of the model, each on one step or one word, with expected results from spec/95_test_vectors.md (the
vector's name is in the test's docstring), and for every statement with hypotheses a concrete state that meets them all. -/

open Sys2Proof Sys2Proof.Machine Sys2Proof.Claims

namespace Sys2Proof.Tests

/-! ## Helpers -/

/-- The next state, where there is one. -/
def next? : Out → Option State
  | .next s => some s
  | .fault _ => none
  | .refused _ => none

/-- What a test looks at in a next state. -/
def see {α : Type} (f : State → α) (o : Out) : Option α := (next? o).map f

/-- The last response. -/
def lastAnswer (s : State) : Option Response := s.answers.getLast?.map Answer.response

/-- The parameters of the vectors, after reset, with a transaction of port `p` and room 1 in progress. -/
def onPort (p : Port) : State := { State.reset with port := p, room := true }

/-- The same with the one reassembler in a given state. -/
def rxIn (st : Phase) (n : BitVec 8) (buf : List Byte) : State :=
  { onPort (.rx 0) with rx := [⟨st, n, buf⟩] }

/-- The same with `NAK_CODE_EN` 1. -/
def withCodes (s : State) : State := { s with cfg := { s.cfg with nakCodeEn := true } }

/-- The same with no room. -/
def full (s : State) : State := { s with room := false }

/-- A Fault Register of two channels. -/
def frWith (c0 l0 c1 l1 sticky : Bitmap) (ok : Bool) : State :=
  { onPort .fr with fr := ⟨[⟨c0, l0⟩, ⟨c1, l1⟩], sticky, ok⟩ }

/-- The bitmaps, `current[0]`, `latched[0]`, `current[1]`, `latched[1]`, then the sticky mask. -/
def maps (s : State) : List Bitmap :=
  [s.fr.current 0, s.fr.latched 0, s.fr.current 1, s.fr.latched 1, s.fr.sticky]

/-- One transaction to come. -/
def given (s : State) (p : Port) (w : Word) (operand : List Byte) : State :=
  { s with input := [⟨p, w, operand, true⟩] }

/-- The frame of V20 up to its first digit. -/
def v20 : List Byte := [0x31, 0x41, 0x42, 0x43, 0x44, 0x45, 0x46, 0x47, 0x30, 0x00]

/-- The type and payload of V20. -/
def v20Data : List Byte := [0x31, 0x41, 0x42, 0x43, 0x44, 0x45, 0x46, 0x47]

/-- Two hundred and fifty-six bytes: one more than an operand can have. -/
def tooMany : List Byte := List.replicate 256 0x10

theorem tooMany_length : tooMany.length = 256 := List.length_replicate

/-! ## WellFormed and the parameters: an ill-formed term for each check -/

theorem test_wf_refuses_256_bytes :
    (Instr.ckCompute tooMany).wf = false ∧ (Instr.ckVerify tooMany).wf = false ∧
    (Instr.txData tooMany).wf = false := by
  simp [Instr.wf, operandFits, tooMany_length]

theorem test_wf_takes_255_bytes : (Instr.ckCompute (tooMany.drop 1)).wf = true := by
  simp [Instr.wf, operandFits, tooMany_length]

theorem test_port_refuses_a_missing_instance :
    (Port.rx 1).isPresent Config.deployed = false ∧ (Port.rx 0).isPresent Config.deployed = true := by decide

theorem test_txn_refuses_a_short_operand :
    ¬ Txn.Legal Config.deployed ⟨.ck, 0x1002, [0x80], true⟩ ∧ ¬ Txn.Legal Config.deployed ⟨.rx 1, 0x2000, [], true⟩ ∧
    ¬ Txn.Legal Config.deployed ⟨.tx, 0x1001, [0x80], true⟩ ∧ Txn.Legal Config.deployed ⟨.tx, 0x1001, [], true⟩ := by decide

theorem test_config_refuses_R13_a : ¬ ({ Config.deployed with payloadBound := 253 } : Config).Legal := by decide
theorem test_config_refuses_R13_b : ¬ ({ Config.deployed with ack := 0x15 } : Config).Legal := by decide
theorem test_config_refuses_R13_c : ¬ ({ Config.deployed with stx := 0x41 } : Config).Legal := by decide
theorem test_config_refuses_R13_d : ¬ ({ Config.deployed with fcInvalid := 65 } : Config).Legal ∧
    ¬ ({ Config.deployed with fcInvalid := 0 } : Config).Legal := by decide
theorem test_config_refuses_R13_e : ¬ ({ Config.deployed with nrx := 0 } : Config).Legal ∧
    ¬ ({ Config.deployed with nchan := 0 } : Config).Legal ∧
    ¬ ({ Config.deployed with nchan := 257 } : Config).Legal := by decide
theorem test_config_takes_the_edges :
    ({ Config.deployed with payloadBound := 252, fcInvalid := 64, nchan := 256, frWords := 3 } : Config).Legal := by decide

/-! ## Decoding: words written out from 30_encoding.md R59, unit, op and arg -/

theorem test_decode_ckCompute : decode 0b0001000000000010#16 [0x80, 0x80] = .ok (.ckCompute [0x80, 0x80]) := by decide
theorem test_decode_ckRender : decode 0b0001000110011010#16 [] = .ok (.ckRender 0x9A) := by decide
theorem test_decode_ckVerify : decode 0b0001001000000010#16 [0x31, 0x33] = .ok (.ckVerify [0x31, 0x33]) := by decide
theorem test_decode_rxByte : decode 0b0010000011111111#16 [] = .ok (.rxByte 0xFF) := by decide
theorem test_decode_rxTimeout : decode 0b0010000100000000#16 [] = .ok .rxTimeout := by decide
theorem test_decode_txAck : decode 0b0011000000000000#16 [] = .ok .txAck := by decide
theorem test_decode_txNak : decode 0b0011000111111111#16 [] = .ok (.txNak 0xFF) := by decide
theorem test_decode_txData : decode 0b0011001000000001#16 [0x31] = .ok (.txData [0x31]) := by decide
theorem test_decode_frInit : decode 0b0100000000000000#16 [] = .ok .frInit := by decide
theorem test_decode_frSet : decode 0b0100000101000001#16 [] = .ok (.frSet 65) := by decide
theorem test_decode_frReset : decode 0b0100001011001000#16 [] = .ok (.frReset 200) := by decide
theorem test_decode_frSticky : decode 0b0100001100001001#16 [] = .ok (.frSticky 9) := by decide
theorem test_decode_frPoll : decode 0b0100010011111111#16 [] = .ok (.frPoll 255) := by decide

/-- V64 to V70, V73, V74. -/
theorem test_decode_reserved :
    decode 0x1300 [] = .error .reserved ∧ decode 0x0000 [] = .error .reserved ∧ decode 0xFFFF [] = .error .reserved ∧
    decode 0x2101 [] = .error .reserved ∧ decode 0x3001 [] = .error .reserved := by decide

theorem test_decode_reserved' :
    decode 0x4001 [] = .error .reserved ∧ decode 0x4500 [] = .error .reserved ∧
    decode 0x2200 [] = .error .reserved ∧ decode 0x3300 [] = .error .reserved := by decide

/-- V71, V72: the wrong port. -/
theorem test_decode_wrong_port : decodeAt .tx 0x4105 [] = .error .reserved ∧
    decodeAt .fr 0x2031 [] = .error .reserved := by decide

theorem test_decode_operand_length : decode 0x1002 [0x80] = .error .operandLength ∧
    decode 0x2031 [0x00] = .error .operandLength := by decide

/-- The rows' words in the host's numbering: V8's word with its first two operand bytes in bits 31..16; a format C row. -/
theorem test_decodeTableWord : decodeTableWord 32 0x41311202 = some (.ckVerify [0x31, 0x41]) ∧
    decodeTableWord 16 0x1202 = some (.ckVerify [0, 0]) ∧ decodeTableWord 16 0x4105 = some (.frSet 5) ∧
    decodeTableWord 16 0x4500 = none := by decide

/-- The instruction placed by the host runs as the first one after reset. -/
theorem test_withFetchWord :
    see lastAnswer (step (State.reset.withFetchWord 16 0x110D)) = some (some (.ck .ok 0x3044)) ∧
    see lastAnswer (step (State.reset.withFetchWord 16 0x2055)) =
      some (some (.rx .ok (.error .unknownFrameType) true)) ∧
    see lastAnswer (step (State.reset.withFetchWord 16 0x4105)) = some (some (.fr .notInit 0)) := by decide

/-- P1's image. -/
theorem test_image : imageOf (.frSet 5) ++ imageOf .frInit = [0x41, 0x05, 0x40, 0x00] := by decide

/-! ## The Checksum Codec -/

/-- V1. -/
theorem test_ckCompute_sum : see lastAnswer (exec (.ckCompute v20Data) (onPort .ck)) = some (some (.ck .ok 0x000D)) := by
  decide
/-- V3 and V62. -/
theorem test_ckCompute_edges : see lastAnswer (exec (.ckCompute [0x80, 0x80]) (onPort .ck)) = some (some (.ck .ok 0)) ∧
    see lastAnswer (exec (.ckCompute []) (onPort .ck)) = some (some (.ck .illegal 0)) := by decide
/-- V7. -/
theorem test_ckRender : (render 0x0A, render 0x3C, render 0x9A, render 0xA9, render 0xF0, render 0xFF) =
    ([0x30, 0x41], [0x33, 0x43], [0x39, 0x41], [0x41, 0x39], [0x46, 0x30], [0x46, 0x46]) := by decide
/-- V7 and V61, as a command. -/
theorem test_ckRender_order : see lastAnswer (exec (.ckRender 0x0D) (onPort .ck)) = some (some (.ck .ok 0x3044)) := by decide
/-- V8 and V9. -/
theorem test_ckVerify_good : ∀ o ∈ [v20Data ++ [0x30, 0x44], [0x31, 0x33, 0x31]],
    see lastAnswer (exec (.ckVerify o) (onPort .ck)) = some (some (.ck .ok 1)) := by decide
/-- V10 and V63. -/
theorem test_ckVerify_bad : (∀ d ∈ [[0x30#8, 0x64], [0x30, 0x45], [0x30, 0x4C], [0x31, 0x44], [0x20, 0x44], [0x44, 0x30],
      [0x02, 0x44]], see lastAnswer (exec (.ckVerify (v20Data ++ d)) (onPort .ck)) = some (some (.ck .ok 0))) ∧
    see lastAnswer (exec (.ckVerify [0x31, 0x33]) (onPort .ck)) = some (some (.ck .illegal 0)) := by decide

/-! ## The Frame Reassembler -/

/-- V20, step 11, and V26 with no room. -/
theorem test_rxByte_completes :
    see (fun s => (lastAnswer s, s.mailbox)) (exec (.rxByte 0x44) (rxIn .inframe 9 v20)) =
      some (some (.rx .ok (.data 0x31 (v20Data.drop 1)) true), [(0, .data 0x31 (v20Data.drop 1))]) ∧
    see (fun s => (lastAnswer s, s.mailbox)) (exec (.rxByte 0x44) (full (rxIn .inframe 9 v20))) =
      some (some (.rx .ok (.data 0x31 (v20Data.drop 1)) false), []) := by decide
/-- V23, V24 and V29, the results of single bytes. -/
theorem test_rxByte_others :
    (∀ b ∈ [0x45#8, 0x64, 0x20], see lastAnswer (exec (.rxByte b) (rxIn .inframe 9 v20)) =
      some (some (.rx .ok (.error .checksumMismatch) true))) ∧
    (∀ b ∈ [0x55#8, 0x00, 0xFF], see lastAnswer (exec (.rxByte b) (rxIn .idle 0 v20)) =
      some (some (.rx .ok (.error .unknownFrameType) true))) ∧
    see lastAnswer (exec (.rxByte 0x06) (rxIn .inframe 9 v20)) = some (some (.rx .ok .ack true)) ∧
    see lastAnswer (exec (.rxByte 0x15) (rxIn .inframe 9 v20)) = some (some (.rx .ok (.nak none) true)) ∧
    see (fun s => s.rx) (exec (.rxByte 0x02) (rxIn .inframe 9 v20)) = some [⟨.inframe, 0, v20⟩] ∧
    see (fun s => s.rx) (exec (.rxByte 0x15) (withCodes (rxIn .idle 0 v20))) = some [⟨.nakpend, 0, v20⟩] ∧
    see lastAnswer (exec (.rxByte 0x02) (withCodes (rxIn .nakpend 0 v20))) =
      some (some (.rx .ok (.nak (some 0x02)) true)) := by decide
/-- V22, step 5, and V26. -/
theorem test_rxTimeout :
    see (fun s => (lastAnswer s, s.mailbox, s.rx)) (exec .rxTimeout (rxIn .inframe 3 v20)) =
      some (some (.rx .ok (.error .timeout) true), [(0, .error)], [⟨.idle, 0, v20⟩]) ∧
    see (fun s => (lastAnswer s, s.mailbox)) (exec .rxTimeout (full (rxIn .inframe 3 v20))) =
      some (some (.rx .ok (.error .timeout) false), []) := by decide

/-! ## The Message Formatter -/

/-- V50 and V51. -/
theorem test_txAck : see (fun s => (lastAnswer s, s.wire)) (exec .txAck (onPort .tx)) =
      some (some (.tx .ok true 1), [0x06]) ∧
    see (fun s => (lastAnswer s, s.wire)) (exec .txAck (full (onPort .tx))) = some (some (.tx .ok false 0), []) := by decide
/-- V52 and V53. -/
theorem test_txNak : ∀ c ∈ [0x07#8, 0x00, 0xFF], see (fun s => (lastAnswer s, s.wire)) (exec (.txNak c) (onPort .tx)) =
      some (some (.tx .ok true 1), [0x15]) := by decide
/-- V57 and V59b. -/
theorem test_txData_frames :
    see (fun s => (lastAnswer s, s.wire)) (exec (.txData [0x31, 0x41, 0x42]) (onPort .tx)) =
      some (some (.tx .ok true 6), [0x02, 0x31, 0x41, 0x42, 0x42, 0x34]) ∧
    see (fun s => (lastAnswer s, s.wire))
        (exec (.txData [0x31, 0x02, 0x42, 0x43, 0x44, 0x45, 0x46, 0x47]) (onPort .tx)) =
      some (some (.tx .ok true 11), [0x02, 0x31, 0x02, 0x42, 0x43, 0x44, 0x45, 0x46, 0x47, 0x43, 0x45]) := by decide
/-- V55, V58 and V75. -/
theorem test_txData_sends_nothing :
    see (fun s => (lastAnswer s, s.wire)) (exec (.txData v20Data) (full (onPort .tx))) =
      some (some (.tx .ok false 0), []) ∧
    see (fun s => (lastAnswer s, s.wire)) (exec (.txData (v20Data ++ [0x48])) (onPort .tx)) =
      some (some (.tx .tooLong false 0), []) ∧
    see (fun s => (lastAnswer s, s.wire)) (exec (.txData []) (onPort .tx)) =
      some (some (.tx .illegal false 0), []) := by decide

/-! ## The Fault Register -/

/-- P1, step 2, V43 and V46. -/
theorem test_frInit : see (fun s => (lastAnswer s, maps s, s.fr.ok)) (exec .frInit (frWith 2 2 2 2 2 true)) =
      some (some (.fr .ok 0), [0, 0, 0, 0, 0], true) ∧
    see (fun s => (lastAnswer s, maps s, s.fr.ok))
        (exec .frInit { frWith 0 0 0 0 0 false with cfg := { Config.deployed with frWords := 3 } }) =
      some (some (.fr .configError 0), [0, 0, 0, 0, 0], false) := by decide
/-- V40, first and last line, and V41, step 3. -/
theorem test_frSet : see (fun s => (lastAnswer s, maps s)) (exec (.frSet 64) (frWith 0 0 0 0 0 true)) =
      some (some (.fr .ok 0), [0x8000000000000000, 0x8000000000000000, 0x8000000000000000, 0x8000000000000000, 0]) ∧
    see maps (exec (.frSet 4) (frWith 0 0 0x4 0x4 0 true)) = some [0x8, 0x8, 0xC, 0xC, 0] := by decide
/-- P3, step 4, and V79. -/
theorem test_frSet_bad_code : see (fun s => (lastAnswer s, maps s)) (exec (.frSet 65) (frWith 0 0 1 1 0 true)) =
      some (some (.fr .invalidCode 0), [1, 1, 1, 1, 0]) ∧
    see (fun s => (lastAnswer s, maps s)) (exec (.frSet 0) (frWith 0 0 0 0 0 false)) =
      some (some (.fr .notInit 0), [0, 0, 0, 0, 0]) := by decide
/-- P2, step 7, and P3, step 5. -/
theorem test_frReset :
    see (fun s => (lastAnswer s, maps s)) (exec (.frReset 7) (frWith 0x40 0x40 0x80040 0x80040 0x40 true)) =
      some (some (.fr .ok 0), [0, 0x40, 0x80000, 0x80040, 0x40]) ∧
    see (fun s => (lastAnswer s, maps s)) (exec (.frReset 200) (frWith 0 0 0 0 0 true)) =
      some (some (.fr .invalidCode 0), [1, 1, 1, 1, 0]) := by decide
/-- V42, step 3, and P3, step 6. -/
theorem test_frSticky :
    see (fun s => (lastAnswer s, maps s)) (exec (.frSticky 9) (frWith 0 0 0x100 0x100 0 true)) =
      some (some (.fr .ok 0), [0, 0, 0x100, 0x100, 0x100]) ∧
    see (fun s => (lastAnswer s, maps s)) (exec (.frSticky 0) (frWith 0 0 0 0 0 true)) =
      some (some (.fr .invalidCode 0), [1, 1, 1, 1, 0]) := by decide
/-- P2, steps 5 and 10. -/
theorem test_frPoll :
    see (fun s => (lastAnswer s, maps s)) (exec (.frPoll 0) (frWith 0x80040 0x80040 0x80040 0x80040 0x40 true)) =
      some (some (.fr .ok 0x80040), [0x40, 0x40, 0x80040, 0x80040, 0x40]) ∧
    see (fun s => (lastAnswer s, maps s)) (exec (.frPoll 1) (frWith 0 0 0x80000 0x80040 0x40 true)) =
      some (some (.fr .ok 0x80040), [0, 0, 0, 0, 0x40]) := by decide
/-- V45, V77 and P3, step 9. -/
theorem test_frPoll_refused :
    see lastAnswer (exec (.frPoll 0) (frWith 0 0 0 0 0 false)) = some (some (.fr .notInit 0)) ∧
    (∀ n ∈ [2#8, 0xFF], see lastAnswer (exec (.frPoll n) (frWith 0 0 0 0 0 false)) = some (some (.fr .illegal 0)) ∧
      see lastAnswer (exec (.frPoll n) (frWith 0 0 1 1 0 true)) = some (some (.fr .illegal 0))) := by decide

/-! ## Witnesses: for each statement with hypotheses, a state and operands that meet them, clause by clause

A witness is named after its statement. `exec` and `step` hypotheses are met by the state they answer, found by evaluation. -/

/-- Any state that a next outcome holds, for naming it in a witness. -/
theorem wit_next (o : Out) (h : (next? o).isSome = true) : ∃ u, o = .next u := by
  cases o with
  | next s => exact ⟨s, rfl⟩
  | fault r => simp [next?] at h
  | refused r => simp [next?] at h

theorem witness_EveryCommandDecodesFromItsEncoding : (Instr.txData []).wf = true ∧ (Instr.frSet 0xFF).wf = true ∧
    (Instr.ckCompute (tooMany.drop 1)).wf = true := ⟨rfl, rfl, test_wf_takes_255_bytes⟩

theorem witness_EachWordHasOneMeaning : decode 0x1001 [0x31] = .ok (.ckCompute [0x31]) ∧
    decode 0x44FF [] = .ok (.frPoll 255) := by decide

theorem witness_NoWordMatchesTwoRows : (⟨.rxTimeout, 0xFFFF, 0x2100⟩ : Row) ∈ opcodeTable ∧
    0x2100#16 &&& 0xFFFF = 0x2100 ∧ (⟨.frPoll, 0xFF00, 0x4400⟩ : Row) ∈ opcodeTable ∧
    0x44FF#16 &&& 0xFF00 = 0x4400 := by decide

theorem witness_CommandsAreBoundToTheirPort :
    ((Instr.frSet 5).wf = true ∧ Port.fr.unit = (Instr.frSet 5).unit ∧ Port.tx.unit ≠ (Instr.frSet 5).unit ∧
      (onPort .tx).port.unit ≠ (Instr.frSet 5).unit ∧ (rxIn .idle 0 v20).port = .rx 0 ∧ (1 : Nat) ≠ 0) ∧
    ∃ u, exec (.rxByte 0x02) (rxIn .idle 0 v20) = .next u := ⟨by decide, wit_next _ (by decide)⟩

theorem witness_ImageIsReadBack : ∀ i ∈ [Instr.frInit, .frSet 5, .txData [0x31]], i.wf = true := by decide

theorem witness_StepRunsTheDecodedCommand : (given State.reset (.rx 0) 0x2055 []).cfg.Legal ∧
    (given State.reset (.rx 0) 0x2055 []).input = ⟨.rx 0, 0x2055, [], true⟩ :: [] ∧
    (Port.rx 0).isPresent (given State.reset (.rx 0) 0x2055 []).cfg = true ∧
    decodeAt (.rx 0) 0x2055 [] = .ok (.rxByte 0x55) := by decide

theorem witness_ReservedWordsAreIllegalAndDoNothing :
    (given State.reset .fr 0x4500 []).cfg.Legal ∧
    (given State.reset .fr 0x4500 []).input = ⟨.fr, 0x4500, [], true⟩ :: [] ∧
    Port.fr.isPresent (given State.reset .fr 0x4500 []).cfg = true ∧
    (selectOp 0x4500 = none ∧ unitOf 0x4105 ≠ Port.tx.unit) ∧ (⟨.fr, 0x4500, [], true⟩ : Txn).operand = [] := by decide

/-- The reserved words at the edge of each clause, and the first words past it that are commands. -/
theorem witness_ReservedWords_edges :
    ([0x0FFF#16, 0x5000].map selectOp = [none, none]) ∧ ([0x12FF#16, 0x1300].map selectOp = [some .ckVerify, none]) ∧
    ([0x2100#16, 0x2101, 0x2200].map selectOp = [some .rxTimeout, none, none]) ∧
    ([0x3000#16, 0x3001, 0x32FF, 0x3300].map selectOp = [some .txAck, none, some .txData, none]) ∧
    ([0x4000#16, 0x4001, 0x44FF, 0x4500].map selectOp = [some .frInit, none, some .frPoll, none]) := by decide

theorem witness_EveryTransactionCompletesWithOneResponse : (given State.reset .ck 0x1002 [0x80, 0x80]).Inv ∧
    (given State.reset .ck 0x1002 [0x80, 0x80]).input = ⟨.ck, 0x1002, [0x80, 0x80], true⟩ :: [] ∧
    Txn.Legal State.reset.cfg ⟨.ck, 0x1002, [0x80, 0x80], true⟩ := by decide

theorem witness_EmissionsComeOnlyFromTheirPort :
    (∃ u, step State.reset = .next u) ∧ State.reset.input = [] ∧
    (∃ u, step (given State.reset .tx 0x3000 []) = .next u) ∧ (given State.reset .tx 0x3000 []).input ≠ [] ∧
    (see (fun u => u.wire) (step (given State.reset .tx 0x3000 [])) = some [0x06]) :=
  ⟨⟨_, rfl⟩, rfl, wit_next _ (by decide), by decide, by decide⟩

theorem witness_InputsThatAreNoTransaction :
    (State.reset.cfg.Legal ∧ State.reset.input = []) ∧
    (¬ ({ State.reset with cfg := { Config.deployed with nchan := 257 } } : State).cfg.Legal) ∧
    ((given State.reset (.rx 1) 0x2055 []).input = ⟨.rx 1, 0x2055, [], true⟩ :: [] ∧
      (Port.rx 1).isPresent State.reset.cfg = false) ∧
    ((given State.reset .ck 0x1002 [0x80]).input = ⟨.ck, 0x1002, [0x80], true⟩ :: [] ∧
      Port.ck.isPresent State.reset.cfg = true ∧ [0x80#8].length ≠ operandLengthAt .ck 0x1002) := by decide

theorem witness_ResetMeetsTheInvariant : Config.deployed.Legal := by decide

theorem witness_EveryStepKeepsTheInvariant : (given State.reset (.rx 0) 0x2002 []).Inv ∧
    ∃ u, step (given State.reset (.rx 0) 0x2002 []) = .next u := ⟨by decide, wit_next _ (by decide)⟩

theorem witness_ChannelsAgreeOnStickyFaults :
    ((∃ u, exec (.frPoll 0) (frWith 0x40 0x40 0x80040 0x80040 0x40 true) = .next u) ∧
      (frWith 0x40 0x40 0x80040 0x80040 0x40 true).fr.StickyAgree ∧ (∀ code, Instr.frPoll 0 ≠ .frSticky code)) ∧
    ((∃ u, exec (.frSticky 9) (frWith 0 0x1 0 0x1 0 true) = .next u) ∧ (frWith 0 0x1 0 0x1 0 true).fr.StickyAgree ∧
      ∀ ch ∈ (frWith 0 0x1 0 0x1 0 true).fr.chan, ch.current = 0) :=
  ⟨⟨wit_next _ (by decide), by decide, by simp⟩, wit_next _ (by decide), by decide, by decide⟩

theorem witness_FrameInProgressHoldsNoControlByte :
    (given (rxIn .inframe 8 v20) (.rx 0) 0x2030 []).Inv ∧
    (∀ r ∈ (given (rxIn .inframe 8 v20) (.rx 0) 0x2030 []).rx, r.state = .inframe →
      ∀ b ∈ r.buf.take r.count.toNat, Config.deployed.isControl b = false) ∧
    ∃ u, step (given (rxIn .inframe 8 v20) (.rx 0) 0x2030 []) = .next u :=
  ⟨by decide, by decide, wit_next _ (by decide)⟩

theorem witness_PayloadTooLongNeverHappens :
    ((rxIn .inframe 10 v20).port = .rx 0 ∧ (rxIn .inframe 10 v20).rx[0]? = some ⟨.inframe, 10, v20⟩ ∧
      (rxIn .inframe 10 v20).cfg.isControl 0x55 = false ∧ (rxIn .inframe 10 v20).cfg.frameLen ≤ (10#8).toNat) ∧
    (given (rxIn .idle 0 v20) (.rx 0) 0x2055 []).Inv ∧
    ∃ u, step (given (rxIn .idle 0 v20) (.rx 0) 0x2055 []) = .next u ∧
      u.answers = [] ++ [⟨.rx 0, .rx .ok (.error .unknownFrameType) true⟩] :=
  ⟨by decide, by decide, _, rfl, by decide⟩

theorem witness_OnlyFrCommandsWriteTheFaultRegister : (∃ u, step (given State.reset (.rx 0) 0x2055 []) = .next u) ∧
    (∀ t rest, (given State.reset (.rx 0) 0x2055 []).input = t :: rest → t.port ≠ .fr) :=
  ⟨wit_next _ (by decide), fun t rest h => by
    have h := (List.cons.inj h).1; subst h; decide⟩

theorem witness_InstancesArePrivate : (∃ u, step (given State.reset .tx 0x3000 []) = .next u) ∧
    (∀ t rest, (given State.reset .tx 0x3000 []).input = t :: rest → t.port ≠ .rx 0) :=
  ⟨wit_next _ (by decide), fun t rest h => by
    have h := (List.cons.inj h).1; subst h; decide⟩

theorem witness_FaultsPersistUntilResetPollOrInit : (State.reset.input = [] ∧ ∃ u, step State.reset = .next u) ∧
    (∃ u, exec (.frSet 65) (frWith 2 2 2 2 2 true) = .next u) ∧
    ((∀ c, Instr.frSet 65 ≠ .frReset c) ∧ (∀ n, Instr.frSet 65 ≠ .frPoll n) ∧ Instr.frSet 65 ≠ .frInit) ∧
    (∃ u, exec (.frReset 2) (frWith 2 2 2 2 2 true) = .next u) ∧ (∀ n, Instr.frReset 2 ≠ .frPoll n) ∧
    Instr.frReset 2 ≠ .frInit :=
  ⟨⟨rfl, _, rfl⟩, wit_next _ (by decide), by simp, wit_next _ (by decide), by simp, by simp⟩

theorem witness_TransactionsOnDifferentPortsCommute : State.reset.Inv ∧
    Txn.Legal State.reset.cfg ⟨.tx, 0x3000, [], true⟩ ∧ Txn.Legal State.reset.cfg ⟨.rx 0, 0x2006, [], true⟩ ∧
    Port.tx ≠ .rx 0 := by decide

/-- `v20` and the same with another byte at index 9, which `rx.count = 9` does not count. -/
theorem witness_DeadBufferBytesAreNeverRead :
    (given (rxIn .inframe 9 v20) (.rx 0) 0x2044 []).SameLive
      (given (rxIn .inframe 9 (v20.set 9 0xFF)) (.rx 0) 0x2044 []) ∧ v20 ≠ v20.set 9 0xFF ∧
    ∃ u, step (given (rxIn .inframe 9 v20) (.rx 0) 0x2044 []) = .next u :=
  ⟨⟨rfl, rfl, rfl, rfl, rfl, rfl, rfl, rfl, .cons (by decide) .nil⟩, by decide, wit_next _ (by decide)⟩

theorem witness_Ck : (onPort .ck).port = .ck ∧ ([] : List Byte).length = 0 ∧ [0x31#8].length ≠ 0 ∧
    [0x31#8, 0x33].length < 3 ∧ [0x31#8] ≠ [] := by decide

theorem witness_OnlyUpperCaseDigitsHaveAValue :
    (0x30#8).toNat = 0x30 ∧ (0x39#8).toNat = 0x39 ∧ (0x41#8).toNat = 0x41 ∧ (0x46#8).toNat = 0x46 ∧
    (hexval 0x2F = none ∧ hexval 0x3A = none ∧ hexval 0x40 = none ∧ hexval 0x47 = none ∧ hexval 0x64 = none) ∧
    hexval 0x46 = some 15 := by decide

theorem witness_CodecLaws : (0 < 8 ∧ 7 < 8) ∧ [0x44#8, 0x30] ≠ render (compute v20Data) ∧
    [0x31#8, 0x32].Perm [0x32, 0x31] := ⟨by decide, by decide, List.Perm.swap ..⟩

theorem witness_PendingNakTakesTheNextByteAsItsCode : (rxIn .nakpend 0 v20).port = .rx 0 ∧
    (rxIn .nakpend 0 v20).rx[0]? = some ⟨.nakpend, 0, v20⟩ ∧ (⟨.nakpend, 0, v20⟩ : Rx).state = .nakpend := by decide

/-- Both states, for the ACK, NAK and STX statements and the timeout. -/
theorem witness_ControlBytes : ∀ st ∈ [Phase.idle, .inframe], (rxIn st 0 v20).cfg.ControlsDiffer ∧
    (rxIn st 0 v20).port = .rx 0 ∧ (rxIn st 0 v20).rx[0]? = some ⟨st, 0, v20⟩ ∧ st ≠ .nakpend ∧
    (rxIn st 0 v20).cfg.nakCodeEn = false ∧ (withCodes (rxIn st 0 v20)).cfg.nakCodeEn = true := by decide

theorem witness_StrayByteInIdleIsAnUnknownFrameType : (rxIn .idle 0 v20).port = .rx 0 ∧
    (rxIn .idle 0 v20).rx[0]? = some ⟨.idle, 0, v20⟩ ∧ (rxIn .idle 0 v20).cfg.isControl 0x55 = false := by decide

/-- The first and the last index of a frame that is not complete yet. -/
theorem witness_DataByteIsAppended : ∀ n ∈ [0#8, 8], (rxIn .inframe n v20).cfg.BoundFits ∧
    (rxIn .inframe n v20).port = .rx 0 ∧ (rxIn .inframe n v20).rx[0]? = some ⟨.inframe, n, v20⟩ ∧
    (rxIn .inframe n v20).cfg.isControl 0x30 = false ∧ n.toNat + 1 < (rxIn .inframe n v20).cfg.frameLen := by decide

/-- A good and a bad last digit. -/
theorem witness_FullFrameIsVerifiedAndStripped : (rxIn .inframe 9 v20).cfg.BoundFits ∧
    (rxIn .inframe 9 v20).port = .rx 0 ∧ (rxIn .inframe 9 v20).rx[0]? = some ⟨.inframe, 9, v20⟩ ∧
    ((rxIn .inframe 9 v20).cfg.isControl 0x44 = false ∧ (rxIn .inframe 9 v20).cfg.isControl 0x45 = false) ∧
    (v20Data.drop 1).length = (rxIn .inframe 9 v20).cfg.payloadBound ∧
    (9#8).toNat + 1 = (rxIn .inframe 9 v20).cfg.payloadBound + 3 ∧
    (v20.set 9 0x44 = 0x31 :: (v20Data.drop 1 ++ [0x30, 0x44]) ∧ Digits (0x31 :: v20Data.drop 1) 0x30 0x44) ∧
    (v20.set 9 0x45 = 0x31 :: (v20Data.drop 1 ++ [0x30, 0x45]) ∧ ¬ Digits (0x31 :: v20Data.drop 1) 0x30 0x45) := by decide

theorem witness_TimeoutDiscardsThePartialFrame : ∀ st ∈ [Phase.idle, .inframe, .nakpend],
    (rxIn st 0 v20).port = .rx 0 ∧ (rxIn st 0 v20).rx[0]? = some ⟨st, 0, v20⟩ := by decide

/-- A command with a result, and the two without one that leave `IDLE`. -/
theorem witness_ResultsLeaveTheInstanceIdle :
    ((rxIn .inframe 3 v20).Inv ∧ (rxIn .inframe 3 v20).port = .rx 0 ∧
      (rxIn .inframe 3 v20).rx[0]? = some ⟨.inframe, 3, v20⟩ ∧
      ∃ u, exec .rxTimeout (rxIn .inframe 3 v20) = .next u ∧ u.rx[0]? = some ⟨.idle, 0, v20⟩ ∧
        u.answers = [] ++ [⟨.rx 0, .rx .ok (.error .timeout) true⟩]) ∧
    ((rxIn .idle 0 v20).Inv ∧ (rxIn .idle 0 v20).rx[0]? = some ⟨.idle, 0, v20⟩ ∧
      ∃ u, exec (.rxByte 0x02) (rxIn .idle 0 v20) = .next u ∧ u.rx[0]? = some ⟨.inframe, 0, v20⟩ ∧
        u.answers = [] ++ [⟨.rx 0, .rx .ok .none false⟩]) ∧
    ((withCodes (rxIn .idle 0 v20)).Inv ∧
      ∃ u, exec (.rxByte 0x15) (withCodes (rxIn .idle 0 v20)) = .next u ∧ u.rx[0]? = some ⟨.nakpend, 0, v20⟩ ∧
        u.answers = [] ++ [⟨.rx 0, .rx .ok .none false⟩]) :=
  ⟨⟨by decide, rfl, rfl, _, rfl, by decide, by decide⟩, ⟨by decide, rfl, _, rfl, by decide, by decide⟩,
    by decide, _, rfl, by decide, by decide⟩

theorem witness_DataResultsAreVerifiedFrames :
    (rxIn .inframe 9 v20).Inv ∧ (rxIn .inframe 9 v20).port = .rx 0 ∧
    (rxIn .inframe 9 v20).rx[0]? = some ⟨.inframe, 9, v20⟩ ∧
    (∀ b ∈ v20.take 9, (rxIn .inframe 9 v20).cfg.isControl b = false) ∧
    ∃ u, exec (.rxByte 0x44) (rxIn .inframe 9 v20) = .next u ∧
      u.answers = [] ++ [⟨.rx 0, .rx .ok (.data 0x31 (v20Data.drop 1)) true⟩] :=
  ⟨by decide, rfl, rfl, by decide, _, rfl, by decide⟩

/-- V20's frame, and its first ten bytes with room and its last without. -/
def v20Stream : List (Byte × Bool) := (0x02 :: (v20Data ++ [0x30])).map fun b => (b, true)

theorem witness_AFrameAfterItsDelimiterIsReceivedWhole :
    let s := { rxIn .inframe 3 v20 with input := receiveTxns 0 (v20Stream ++ [(0x44, false)]) ++ [] }
    s.Inv ∧ s.rx[0]? = some ⟨.inframe, 3, v20⟩ ∧ (⟨.inframe, 3, v20⟩ : Rx).state ≠ .nakpend ∧
    (v20Data.drop 1).length = s.cfg.payloadBound ∧ (∀ b ∈ 0x31 :: v20Data.drop 1, s.cfg.isControl b = false) ∧
    Digits (0x31 :: v20Data.drop 1) 0x30 0x44 ∧
    (v20Stream ++ [(0x44, false)]).map Prod.fst = s.cfg.stx :: 0x31 :: (v20Data.drop 1 ++ [0x30, 0x44]) := by decide

theorem witness_AShortFrameNeverCompletesByItself :
    let s := { rxIn .inframe 0 v20 with input := receiveTxns 0 (List.replicate 9 (0x41, true)) ++ [] }
    s.Inv ∧ s.rx[0]? = some ⟨.inframe, 0, v20⟩ ∧ (List.replicate 9 (0x41#8, true)).length + 1 = s.cfg.frameLen ∧
    (∀ e ∈ List.replicate 9 (0x41#8, true), s.cfg.isControl e.1 = false) :=
  ⟨by decide, rfl, by decide, fun e he => by rw [List.eq_of_mem_replicate he]; decide⟩

/-- Both sides of the gate for the three emitting commands, and the lengths at the edges of `TX_DATA`'s clauses. -/
theorem witness_Tx : (onPort .tx).port = .tx ∧ (full (onPort .tx)).port = .tx ∧ (onPort .tx).cfg.BoundFits ∧
    ([] : List Byte).length = 0 ∧ (onPort .tx).cfg.payloadBound + 1 < (v20Data ++ [0x48]).length ∧
    v20Data.length ≠ 0 ∧ v20Data.length = (onPort .tx).cfg.payloadBound + 1 := by decide

theorem witness_DroppedMessagesAreConsumedAllTheSame : (rxIn .inframe 9 v20).port = .rx 0 ∧
    (∃ u, exec (.rxByte 0x44) { rxIn .inframe 9 v20 with room := false } = .next u) ∧
    ∃ v, exec (.rxByte 0x44) { rxIn .inframe 9 v20 with room := true } = .next v :=
  ⟨rfl, wit_next _ (by decide), wit_next _ (by decide)⟩

theorem witness_CodeBitLayout : (1 ≤ 1 ∧ 1 ≤ 64) ∧ (1 ≤ 64 ∧ 64 ≤ 64) ∧ (63 < 64 ∧ 3 < 4 ∧ 15 < 16) := by decide

theorem witness_FrInitClearsEverythingOrFails : (onPort .fr).port = .fr ∧ (onPort .fr).cfg.frWords = 4 ∧
    ({ onPort .fr with cfg := { Config.deployed with frWords := 3 } } : State).cfg.frWords ≠ 4 := by decide

/-- The lowest and the highest code and channel of an initialised register, for the statements about its commands and their
laws; code 2 is not sticky in it. -/
theorem witness_FrReady : FrReady (frWith 1 3 1 3 1 true) ∧ (∀ code ∈ [1#8, 64], 1 ≤ code.toNat ∧ code.toNat ≤ 64) ∧
    (∀ n ∈ [0#8, 1], n.toNat < (frWith 1 3 1 3 1 true).cfg.nchan) ∧
    (frWith 1 3 1 3 1 true).cfg.nchan ≤ (2#8).toNat ∧ (frWith 1 3 1 3 1 true).fr.chan[(1#8).toNat]? = some ⟨1, 3⟩ ∧ (frWith 1 3 1 3 1 true).fr.sticky &&& codeBit 2 = 0 ∧
    (∀ m ∈ [1#8, 1], m ≠ 0 ∧ m.toNat < (frWith 1 3 1 3 1 true).cfg.nchan) := by decide

theorem witness_BadCodeActsAsSettingTheInvalidCode : (frWith 0 0 0 0 0 true).cfg.InvalidCodeInRange ∧
    (1#8).toNat = (frWith 0 0 0 0 0 true).cfg.fcInvalid ∧
    (frWith 0 0 0 0 0 true).port = .fr ∧ (frWith 0 0 0 0 0 true).fr.ok = true ∧
    (∀ code ∈ [0#8, 65, 255], BadCode code) ∧ (∀ code ∈ [1#8, 64], ¬ BadCode code) := by decide

theorem witness_FrCommandsAreGated : (frWith 0 0 0 0 0 false).port = .fr ∧ (frWith 0 0 0 0 0 false).fr.ok = false ∧
    (∀ n ∈ [2#8, 255], (frWith 0 0 0 0 0 false).cfg.nchan ≤ n.toNat) ∧
    (∀ n ∈ [0#8, 1], n.toNat < (frWith 0 0 0 0 0 false).cfg.nchan) := by decide

theorem witness_RegisterWritesAreIdempotent : ∀ i ∈ [Instr.frSet 65, .frReset 1, .frSticky 64, .frInit],
    (frWith 1 3 1 3 1 true).port = .fr ∧ (next? (exec i (frWith 1 3 1 3 1 true))).isSome = true := by decide

end Sys2Proof.Tests
end

section
/-! The proofs about the state (10_state.md): reset values, the invariant of a step, each reassembler changed by its own port
only, the sticky faults the channels agree on, dead buffer bytes, and the place of a fault code. -/

namespace Sys2Proof.Machine

/-! ## The reassembler invariant (10_state.md R20) -/

section RxSound
variable {c : Config} {r : Rx}

theorem Rx.sound_reset (c : Config) : (Rx.reset c).Sound c :=
  ⟨nofun, fun _ => rfl, fun _ => nofun, List.length_replicate⟩

/-- `IDLE` with count 0 is sound whatever the buffer holds. -/
theorem Rx.sound_toIdle (hbuf : r.buf.length = c.frameLen) : r.toIdle.Sound c :=
  ⟨nofun, fun _ => rfl, fun _ => nofun, hbuf⟩

theorem Rx.sound_startFrame (hbuf : r.buf.length = c.frameLen) : r.startFrame.Sound c :=
  ⟨fun _ => Nat.zero_lt_succ _, fun _ => rfl, fun _ => nofun, hbuf⟩

/-- A NAK's code is awaited only where the parameters provide for one (41_frame_reassembler.md R99). -/
theorem Rx.sound_awaitCode (hbuf : r.buf.length = c.frameLen) (he : c.nakCodeEn = true) : r.awaitCode.Sound c :=
  ⟨nofun, fun _ => rfl, fun hd => by simp [he] at hd, hbuf⟩

/-- A byte is appended and the frame is not yet full: the count does not wrap, since `FRAME_LEN` is at most 255. -/
theorem Rx.Sound.append (h : r.Sound c) (hfit : c.BoundFits) (hs : r.state = .inframe) {b : Byte}
    (hne : (r.append b).count.toNat ≠ c.frameLen) : (r.append b).Sound c := by
  obtain ⟨hlt, -, -, hbuf⟩ := h
  have hmax : c.frameLen ≤ 255 := by simp only [Config.frameLen]; omega
  have hlt := hlt hs
  have hcount := Machine.append_count r b (by omega)
  exact ⟨fun _ => by omega, absurd hs, fun _ => by simp [hs], by simpa using hbuf⟩

theorem appendByte_sound (h : r.Sound c) (hfit : c.BoundFits) (hs : r.state = .inframe) (b : Byte) :
    (appendByte c r b).1.Sound c := by
  have ⟨_, _, _, hbuf⟩ := h
  obtain ⟨-, he⟩ | ⟨-, -, he⟩ | ⟨-, hne, he⟩ := appendByte_cases c r b <;> rw [he]
  · exact Rx.sound_toIdle hbuf
  · exact Rx.sound_toIdle (by simpa using hbuf)
  · exact h.append hfit hs hne

theorem receiveByte_sound (h : r.Sound c) (hfit : c.BoundFits) (b : Byte) : (receiveByte c r b).1.Sound c := by
  have ⟨_, _, _, hbuf⟩ := h
  obtain ⟨-, he⟩ | ⟨-, -, he⟩ | ⟨-, -, hen, he⟩ | ⟨-, -, -, he⟩ | ⟨-, -, he⟩ | ⟨-, -, he⟩ | ⟨hs, -, he⟩ :=
    receiveByte_cases c r b <;> rw [he]
  · exact Rx.sound_toIdle hbuf
  · exact Rx.sound_toIdle hbuf
  · exact Rx.sound_awaitCode hbuf hen
  · exact Rx.sound_toIdle hbuf
  · exact Rx.sound_startFrame hbuf
  · exact h
  · exact appendByte_sound h hfit hs b

theorem RxEffect.sound {i : Instr} {out : Rx × Result} (he : RxEffect c r i out) (h : r.Sound c)
    (hfit : c.BoundFits) : out.1.Sound c := by
  cases he with
  | byte b => exact receiveByte_sound h hfit b
  | timeout =>
    obtain ⟨-, -, -, hbuf⟩ := h
    exact Rx.sound_toIdle hbuf

end RxSound

/-! ## The Fault Register invariant (10_state.md R27) -/

section FrSound
variable {f : FaultReg} {s : State} {i : Instr}

theorem FrEffect.length_chan (he : FrEffect s i f) : f.chan.length = s.fr.chan.length := by
  cases he with
  | fail | sticky => rfl
  | _ => simp

/-- The rule's `a & ~b == 0`, bit by bit. -/
theorem subset_iff {a b : Bitmap} : subset a b ↔ ∀ k, a.getLsbD k = true → b.getLsbD k = true := by
  constructor
  · intro h k ha
    have hk := BitVec.lt_of_getLsbD ha
    have := congrArg (·.getLsbD k) h
    simpa [ha, hk] using this
  · intro h
    refine BitVec.eq_of_getLsbD_eq fun k hk => ?_
    cases ha : a.getLsbD k
    · simp [ha]
    · simp [ha, h k ha, hk]

theorem Channel.Sound.assert {ch : Channel} (h : ch.Sound) (m : Bitmap) :
    Channel.Sound ⟨ch.current ||| m, ch.latched ||| m⟩ := by
  rw [Channel.Sound, subset_iff] at *
  intro k
  simp only [BitVec.getLsbD_or, Bool.or_eq_true]
  exact Or.imp_left (h k)

theorem Channel.Sound.retract {ch : Channel} (h : ch.Sound) (m : Bitmap) :
    Channel.Sound ⟨ch.current &&& ~~~m, ch.latched⟩ := by
  rw [Channel.Sound, subset_iff] at *
  intro k hk
  rw [BitVec.getLsbD_and, Bool.and_eq_true] at hk
  exact h k hk.1

theorem Channel.sound_same (m : Bitmap) : Channel.Sound ⟨m, m⟩ := subset_iff.mpr fun _ => id

/-- A channel after a poll is a channel of before, or its masked `current` in both bitmaps. -/
theorem FaultReg.mem_collapse {f : FaultReg} {n : Nat} {ch' : Channel} (h : ch' ∈ (f.collapse n).chan) :
    ∃ ch ∈ f.chan, ch' = ch ∨ ch' = ⟨ch.current &&& f.sticky, ch.current &&& f.sticky⟩ := by
  obtain ⟨k, hk⟩ := List.mem_iff_getElem?.mp h
  rw [FaultReg.collapse_chan, List.getElem?_modify, Option.map_eq_map, Option.map_eq_some_iff] at hk
  obtain ⟨ch, hch, rfl⟩ := hk
  refine ⟨ch, List.mem_of_getElem? hch, ?_⟩
  split
  · exact .inr rfl
  · exact .inl rfl

theorem FrEffect.sound (he : FrEffect s i f) (h : ∀ ch ∈ s.fr.chan, ch.Sound) : ∀ ch ∈ f.chan, ch.Sound := by
  have asserted (m : Bitmap) : ∀ ch ∈ (s.fr.assert m).chan, ch.Sound := by
    simpa using fun ch hch => (h ch hch).assert m
  cases he with
  | set | setInvalid | resetInvalid | stickyInvalid => exact asserted _
  | clear => simpa using fun _ => Channel.sound_same 0
  | fail | sticky => exact h
  | reset code => simpa using fun ch hch => (h ch hch).retract _
  | poll n =>
    intro ch' hch'
    obtain ⟨ch, hch, rfl | rfl⟩ := FaultReg.mem_collapse hch'
    · exact h _ hch
    · exact Channel.sound_same _

end FrSound

section Invariant
variable {s : State} {i : Instr}

theorem State.Inv.finished {k : Nat} {r : Rx} {out : Rx × Result} (h : s.Inv)
    (hr : s.rx[k]? = some r) (he : RxEffect s.cfg r i out) : (finished k out s).Inv := by
  obtain ⟨hlegal, hnrx, hnchan, hrx, hfr⟩ := h
  refine ⟨hlegal, by simpa using hnrx, hnchan, fun q hq => ?_, hfr⟩
  obtain hq | rfl := List.mem_or_eq_of_mem_set hq
  · exact hrx q hq
  · exact he.sound (hrx r (List.mem_of_getElem? hr)) hlegal.1

theorem State.Inv.setFr {f : FaultReg} (h : s.Inv) (he : FrEffect s i f) :
    (s.setFr f).Inv := by
  obtain ⟨hlegal, hnrx, hnchan, hrx, hfr⟩ := h
  exact ⟨hlegal, hnrx, he.length_chan.trans hnchan, hrx, he.sound hfr⟩

end Invariant

/-- Settles O16: by kind of transaction, of which only one on `RX[k]` writes a reassembler (`RxEffect.sound`) and only one on
`FR` the Fault Register (`FrEffect.sound`). -/
theorem everyStepKeepsTheInvariant : Obligations.EveryStepKeepsTheInvariant := by
  intro s u hinv h
  obtain ⟨-, rfl⟩ | ⟨t, rest, -, -, hu⟩ := step_effects h
  · exact hinv
  have hinv : (s.present t rest).Inv := hinv
  obtain ⟨r, -, rfl⟩ | ⟨bytes, n, -, rfl⟩ | ⟨k, r, i, out, -, hr, he, -, rfl⟩ | ⟨i, f, st, m, -, he, -, rfl⟩ := hu
  · exact hinv
  · exact hinv
  · exact hinv.finished hr he
  · exact hinv.setFr he

/-! ## Reset (10_state.md R34) -/

/-- Settles O14: every reassembler is `Rx.reset` and every channel is the cleared one. -/
theorem resetValues : Obligations.ResetValues := by
  intro c
  refine ⟨fun r hr => ?_, fun ch hch => ?_, rfl, rfl, List.length_replicate, List.length_replicate⟩
  · obtain rfl := List.eq_of_mem_replicate hr
    exact ⟨rfl, rfl⟩
  · obtain rfl := List.eq_of_mem_replicate hch
    exact ⟨rfl, rfl⟩

theorem State.inv_resetWith {c : Config} (hc : c.Legal) : (State.resetWith c).Inv := by
  refine ⟨hc, List.length_replicate, List.length_replicate, fun r hr => ?_, fun ch hch => ?_⟩
  · exact List.eq_of_mem_replicate hr ▸ Rx.sound_reset c
  · exact List.eq_of_mem_replicate hch ▸ Channel.sound_same 0

/-- Settles O15, from `State.inv_resetWith`; the parameters of `State.reset` are legal. -/
theorem resetMeetsTheInvariant : Obligations.ResetMeetsTheInvariant :=
  ⟨State.inv_resetWith (by decide), fun _ => State.inv_resetWith⟩

/-! ## Each reassembler is changed by its own port only (10_state.md R21) -/

/-- Settles O21: the only write of a reassembler is `List.set` at the index of the transaction's own port. -/
theorem instancesArePrivate : Obligations.InstancesArePrivate := by
  intro s u j h hport
  obtain ⟨-, rfl⟩ | ⟨t, rest, hin, -, hu⟩ := step_effects h
  · rfl
  obtain ⟨r, -, rfl⟩ | ⟨bytes, n, -, rfl⟩ | ⟨k, r, i, out, hk, -, -, -, rfl⟩ | ⟨i, f, st, m, -, -, -, rfl⟩ := hu
  · rfl
  · rfl
  · have hkj : k ≠ j := fun e => hport t rest hin (e ▸ hk)
    rw [finished_rx, State.present_rx, List.getElem?_set_ne hkj]
  · rfl

/-! ## Agreement of the channels on sticky faults (10_state.md R27) -/

/-- Agreement carries over when the sticky part of each channel's new `current` is one and the same function of the sticky
part of some channel's old one. -/
theorem FaultReg.StickyAgree.of_masked {f f' : FaultReg} (h : f.StickyAgree) (g : Bitmap → Bitmap)
    (hg : ∀ ch' ∈ f'.chan, ∃ ch ∈ f.chan, ch'.current &&& f'.sticky = g (ch.current &&& f.sticky)) :
    f'.StickyAgree := by
  intro ch' hch' dh' hdh'
  obtain ⟨ch, hch, hc⟩ := hg ch' hch'
  obtain ⟨dh, hdh, hd⟩ := hg dh' hdh'
  rw [hc, hd, h ch hch dh hdh]

theorem FaultReg.StickyAgree.assert {f : FaultReg} (h : f.StickyAgree) (m : Bitmap) : (f.assert m).StickyAgree := by
  refine h.of_masked (· ||| (m &&& f.sticky)) fun ch' hch' => ?_
  obtain ⟨ch, hch, rfl⟩ := List.mem_map.mp hch'
  exact ⟨ch, hch, BitVec.and_or_distrib_right⟩

theorem FaultReg.StickyAgree.retract {f : FaultReg} (h : f.StickyAgree) (m : Bitmap) : (f.retract m).StickyAgree := by
  refine h.of_masked (· &&& ~~~m) fun ch' hch' => ?_
  obtain ⟨ch, hch, rfl⟩ := List.mem_map.mp hch'
  exact ⟨ch, hch, by simp only [FaultReg.retract_sticky]; ac_rfl⟩

theorem FaultReg.StickyAgree.collapse {f : FaultReg} (h : f.StickyAgree) (n : Nat) : (f.collapse n).StickyAgree := by
  refine h.of_masked id fun ch' hch' => ?_
  obtain ⟨ch, hch, rfl | rfl⟩ := FaultReg.mem_collapse hch'
  · exact ⟨_, hch, rfl⟩
  · exact ⟨ch, hch, by simp [BitVec.and_assoc]⟩

theorem FaultReg.stickyAgree_of_current_zero {f : FaultReg} (h : ∀ ch ∈ f.chan, ch.current = 0) : f.StickyAgree := by
  intro ch hch dh hdh
  rw [h ch hch, h dh hdh]

theorem FrEffect.stickyAgree {s : State} {i : Instr} {f : FaultReg} (he : FrEffect s i f) (h : s.fr.StickyAgree)
    (hi : (∀ code, i ≠ .frSticky code) ∨ ∀ ch ∈ s.fr.chan, ch.current = 0) : f.StickyAgree := by
  cases he with
  | set | setInvalid | resetInvalid | stickyInvalid => exact h.assert _
  | clear => exact FaultReg.stickyAgree_of_current_zero (by simp)
  | fail => exact h
  | reset => exact h.retract _
  | sticky code =>
    obtain hi | hzero := hi
    · exact absurd rfl (hi code)
    · exact FaultReg.stickyAgree_of_current_zero hzero
  | poll => exact h.collapse _

/-- Settles O17: only a command on `FR` changes the register, in one of the ways of `FrEffect`. -/
theorem channelsAgreeOnStickyFaults : Obligations.ChannelsAgreeOnStickyFaults := by
  intro s u i h hagree hi
  obtain ⟨r, -, rfl⟩ | ⟨bytes, n, -, rfl⟩ | ⟨k, r, out, -, -, -, rfl⟩ | ⟨f, st, m, -, he, rfl⟩ := exec_cases h
  · exact hagree
  · exact hagree
  · exact hagree
  · exact he.stickyAgree hagree hi

/-! ## Dead buffer bytes (10_state.md R19) -/

theorem forall₂_set {α β : Type} {R : α → β → Prop} {l : List α} {l' : List β} (h : List.Forall₂ R l l') {x : α}
    {y : β} (hxy : R x y) (k : Nat) : List.Forall₂ R (l.set k x) (l'.set k y) := by
  induction h generalizing k with
  | nil => exact .nil
  | cons hab htail ih =>
    cases k with
    | zero => exact .cons hxy htail
    | succ k => exact .cons hab (ih k)

theorem forall₂_getElem? {α β : Type} {R : α → β → Prop} {l : List α} {l' : List β} (h : List.Forall₂ R l l')
    {k : Nat} {x : α} (hx : l[k]? = some x) : ∃ y, l'[k]? = some y ∧ R x y := by
  obtain ⟨hk, rfl⟩ := List.getElem?_eq_some_iff.mp hx
  have hk' : k < l'.length := h.length_eq ▸ hk
  exact ⟨l'[k], List.getElem?_eq_getElem hk', h.get hk hk'⟩

/-- What an append at `n` makes of the first `n + 1` bytes: it depends on the first `n` and on the length only. -/
theorem take_succ_set {α : Type} (l : List α) (n : Nat) (x : α) :
    (l.set n x).take (n + 1) = l.take n ++ (if n < l.length then [x] else []) := by
  rw [List.take_add_one]
  split
  · next h => simp [List.getElem?_set_self h, List.take_set_of_le]
  · next h => simp [List.set_eq_of_length_le (not_lt.mp h), not_lt.mp h]

/-- The result of a frame is read from its first `FRAME_LEN` bytes. -/
theorem frameResult_take (c : Config) (buf : List Byte) :
    frameResult c (buf.take c.frameLen) = frameResult c buf := by
  have ht : frameType (buf.take c.frameLen) = frameType buf := by
    simp [frameType, Config.frameLen]
  have hp : framePayload c (buf.take c.frameLen) = framePayload c buf := by
    simp [framePayload, Config.frameLen, List.drop_take, List.take_take]
  have hh : frameHigh c (buf.take c.frameLen) = frameHigh c buf := by
    simp [frameHigh, Config.frameLen]
  have hl : frameLow c (buf.take c.frameLen) = frameLow c buf := by
    simp [frameLow, Config.frameLen]
  rw [frameResult, frameResult, ht, hp, hh, hl]

section SameLive
variable {a b : Rx}

/-- With the count set to 0 every byte is dead. -/
theorem Rx.SameLive.restart (h : a.SameLive b) (p : Phase) :
    Rx.SameLive { a with state := p, count := 0 } { b with state := p, count := 0 } := by
  obtain ⟨-, -, hlen, -⟩ := h
  exact ⟨rfl, rfl, hlen, rfl⟩

/-- An appended byte becomes live in both; the rest of the live bytes are those of before. -/
theorem Rx.SameLive.append (h : a.SameLive b) (x : Byte) (hc : a.count.toNat < 255) :
    (a.append x).SameLive (b.append x) := by
  obtain ⟨hstate, hcount, hlen, hbuf⟩ := h
  refine ⟨hstate, by simp [hcount], by simp [hlen], ?_⟩
  rw [Machine.append_count a x hc, Machine.append_count b x (hcount ▸ hc), append_buf, append_buf,
    take_succ_set, take_succ_set, hbuf, hlen, hcount]

/-- Two transitions that came out alike: the same result, and reassemblers that differ in dead bytes only. -/
abbrev SameResult (x y : Rx × Result) : Prop := x.1.SameLive y.1 ∧ x.2 = y.2

theorem appendByte_sameResult {c : Config} (hfit : c.BoundFits) (h : a.SameLive b) (x : Byte) :
    SameResult (appendByte c a x) (appendByte c b x) := by
  have ⟨_, hcount, _, _⟩ := h
  rw [appendByte, appendByte, Rx.append_count, Rx.append_count, ← hcount]
  split
  · exact ⟨h.restart .idle, rfl⟩
  · next hlt =>
    have happ := h.append x (by simp only [Config.frameLen] at hlt; omega)
    split
    · next hfull =>
      refine ⟨happ.restart .idle, ?_⟩
      obtain ⟨-, hn, -, hbuf⟩ := happ
      rw [← hn, Rx.append_count, hfull] at hbuf
      rw [← frameResult_take, hbuf, frameResult_take]
    · exact ⟨happ, rfl⟩

theorem receiveByte_sameResult {c : Config} (hfit : c.BoundFits) (h : a.SameLive b) (x : Byte) :
    SameResult (receiveByte c a x) (receiveByte c b x) := by
  have ⟨hstate, _, _, _⟩ := h
  unfold receiveByte nakByte
  rw [← hstate]
  split
  · exact ⟨h.restart .idle, rfl⟩
  split
  · exact ⟨h.restart .idle, rfl⟩
  split
  · split
    · exact ⟨h.restart .nakpend, rfl⟩
    · exact ⟨h.restart .idle, rfl⟩
  split
  · exact ⟨h.restart .inframe, rfl⟩
  split
  · exact ⟨h, rfl⟩
  · exact appendByte_sameResult hfit h x

end SameLive

/-! ## Two machines that differ in dead bytes -/

section Machines
variable {s t u : State}

theorem State.SameLive.cfg_eq (h : s.SameLive t) : s.cfg = t.cfg := h.1

theorem State.SameLive.input_eq (h : s.SameLive t) : s.input = t.input := by
  obtain ⟨-, -, hinput, -⟩ := h; exact hinput

theorem State.SameLive.port_eq (h : s.SameLive t) : s.port = t.port := by
  obtain ⟨-, -, -, hport, -⟩ := h; exact hport

theorem State.SameLive.rx_sameLive (h : s.SameLive t) : List.Forall₂ Rx.SameLive s.rx t.rx := by
  obtain ⟨-, -, -, -, -, -, -, -, hrx⟩ := h; exact hrx

/-- A command on another unit's port (30_encoding.md R61, R62; log 17). -/
theorem exec_foreign {i : Instr} (h : s.port.unit ≠ i.unit) : exec i s = raise .illegal s := by
  cases i with
  | rxByte | rxTimeout =>
    cases hp : s.port with
    | rx k => exact absurd (congrArg Port.unit hp) h
    | _ => simp [exec, execRxByte, execRxTimeout, onInstance, hp]
  | _ => exact onUnit_other h

theorem State.SameLive.respond (h : s.SameLive t) (r : Response) : (s.respond r).SameLive (t.respond r) := by
  obtain ⟨hcfg, hfr, hinput, hport, hroom, hanswers, hwire, hmailbox, hrx⟩ := h
  exact ⟨hcfg, hfr, hinput, hport, hroom, by simp [hanswers, hport], hwire, hmailbox, hrx⟩

theorem State.SameLive.present (h : s.SameLive t) (x : Txn) (rest : List Txn) :
    (s.present x rest).SameLive (t.present x rest) := by
  obtain ⟨hcfg, hfr, -, -, -, hanswers, hwire, hmailbox, hrx⟩ := h
  exact ⟨hcfg, hfr, rfl, rfl, rfl, hanswers, hwire, hmailbox, hrx⟩

theorem State.SameLive.raise_next (h : s.SameLive t) {st : Status} (hu : raise st s = .next u) :
    ∃ v, raise st t = .next v ∧ u.SameLive v := by
  obtain rfl := Machine.raise_next.mp hu
  exact ⟨_, by rw [raise, ← h.port_eq], h.respond _⟩

/-- An effect that writes no reassembler. -/
theorem State.SameLive.apply (h : s.SameLive t) {e : Effect} (he : e.rx = none) :
    (e.apply s).SameLive (e.apply t) := by
  obtain ⟨hcfg, hfr, hinput, hport, hroom, hanswers, hwire, hmailbox, hrx⟩ := h
  refine ⟨hcfg, ?_, hinput, hport, hroom, ?_, ?_, ?_, ?_⟩ <;> simp [Effect.apply, *]

theorem State.SameLive.finished (h : s.SameLive t) (k : Nat) {x y : Rx × Result} (hxy : SameResult x y) :
    (finished k x s).SameLive (finished k y t) := by
  obtain ⟨hlive, hres⟩ := hxy
  obtain ⟨hcfg, hfr, hinput, hport, hroom, hanswers, hwire, hmailbox, hrx⟩ := h
  refine ⟨hcfg, hfr, hinput, hport, hroom, ?_, hwire, ?_, ?_⟩
  · simp [hanswers, hport, hres, hroom]
  · simp [hmailbox, hres, hroom]
  · exact forall₂_set hrx hlive k

/-- A reassembler command whose transition takes reassemblers that differ in dead bytes to a `SameResult` takes such states
to such states. -/
theorem State.SameLive.onInstance_next (h : s.SameLive t) {k : Nat} (hp : s.port = .rx k) {g : Rx → Rx × Result}
    (hg : ∀ a b, a.SameLive b → SameResult (g a) (g b))
    (hu : onInstance s (fun j r => finishRx j (g r) s) = .next u) :
    ∃ v, onInstance t (fun j r => finishRx j (g r) t) = .next v ∧ u.SameLive v := by
  cases hr : s.rx[k]? with
  | none => simp [onInstance, hp, hr] at hu
  | some r =>
    rw [onInstance_at hp hr] at hu
    obtain rfl := next_inj hu
    obtain ⟨q, hq, hrq⟩ := forall₂_getElem? h.rx_sameLive hr
    exact ⟨_, onInstance_at (h.port_eq ▸ hp) hq, h.finished k (hg r q hrq)⟩

/-- Off the reassembler ports a command has one and the same effect, which writes no reassembler. -/
theorem State.SameLive.exec_off_rx (h : s.SameLive t) (hp : ∀ k, s.port ≠ .rx k) {i : Instr}
    (hu : exec i s = .next u) : ∃ v, exec i t = .next v ∧ u.SameLive v := by
  have hsame : SameAt s t := by
    obtain ⟨hcfg, hfr, -, hport, hroom, -⟩ := h
    exact ⟨hcfg, hport, hroom, fun k hk => absurd hk (hp k), fun _ => hfr⟩
  obtain ⟨e, hon, hs, ht⟩ := exec_alike i hsame fun k hk => absurd hk (hp k)
  obtain rfl := next_inj (hs.symm.trans hu)
  have he : e.rx = none := Option.eq_none_iff_forall_ne_some.mpr fun out hout => hp _ (hon.rx _ _ hout)
  exact ⟨_, ht, h.apply he⟩

theorem State.SameLive.exec_rxByte (h : s.SameLive t) (hfit : s.cfg.BoundFits) {k : Nat} (hp : s.port = .rx k)
    {x : Byte} (hu : exec (.rxByte x) s = .next u) : ∃ v, exec (.rxByte x) t = .next v ∧ u.SameLive v := by
  have hrun := h.onInstance_next hp (g := (receiveByte s.cfg · x))
    (fun _ _ hab => receiveByte_sameResult hfit hab x) hu
  rw [h.cfg_eq] at hrun
  exact hrun

/-- A command that goes on in one of two states that differ in dead bytes only goes on in the other too, to two such
states. -/
theorem State.SameLive.exec_next (h : s.SameLive t) (hfit : s.cfg.BoundFits) {i : Instr}
    (hu : exec i s = .next u) : ∃ v, exec i t = .next v ∧ u.SameLive v := by
  by_cases hp : s.port.unit = i.unit
  · cases i with
    | rxByte x =>
      obtain ⟨k, hk⟩ := unit_eq_rx.mp hp
      exact h.exec_rxByte hfit hk hu
    | rxTimeout =>
      obtain ⟨k, hk⟩ := unit_eq_rx.mp hp
      exact h.onInstance_next hk (fun _ _ hab => ⟨hab.restart .idle, rfl⟩) hu
    | _ => exact h.exec_off_rx (fun k hk => by simp [hk, Port.unit, Instr.unit] at hp) hu
  · rw [exec_foreign hp] at hu
    rw [exec_foreign (h.port_eq ▸ hp)]
    exact h.raise_next hu

theorem step_idle (hl : s.cfg.Legal) (hin : s.input = []) : step s = .next s := by
  rw [step, nextStep, if_pos hl, hin]

/-- A step on a transaction on an existing port runs what the port's decoder makes of it. -/
theorem step_of_txn {x : Txn} {rest : List Txn} (hl : s.cfg.Legal) (hin : s.input = x :: rest)
    (hp : x.port.isPresent s.cfg = true) :
    step s = runDecoded (decodeAt x.port x.word x.operand) (s.present x rest) := by
  rw [step, nextStep, if_pos hl, hin]
  exact if_pos hp

end Machines

/-- Settles O24: both machines decode the same transaction and run it in states that differ in dead bytes only. -/
theorem deadBufferBytesAreNeverRead : Obligations.DeadBufferBytesAreNeverRead := by
  intro s t u h hu
  have hcfg := h.cfg_eq
  have hinput := h.input_eq
  obtain ⟨hl, ⟨hin, rfl⟩ | ⟨x, rest, hin, hp, hx⟩⟩ := step_cases hu
  · exact ⟨t, step_idle (hcfg ▸ hl) (hinput ▸ hin), h⟩
  rw [step_of_txn (hcfg ▸ hl) (hinput ▸ hin) (hcfg ▸ hp)]
  obtain ⟨i, hd, he⟩ | ⟨hd, rfl⟩ := hx
  · rw [hd]
    exact (h.present x rest).exec_next hl.1 he
  · rw [hd]
    exact (h.present x rest).raise_next rfl

/-! ## The place of a fault code (10_state.md R26, 43_fault_register.md R146) -/

theorem bitof_getLsbD {k : Nat} (h1 : 1 ≤ k) (h64 : k ≤ 64) (j : Nat) :
    (bitof k).getLsbD j = decide (j = k - 1) := by
  have htwo : (bitof k).getLsbD j = (decide (k - 1 < 64) && decide (k - 1 = j)) := BitVec.getLsbD_twoPow _ _
  have hlt : k - 1 < 64 := by omega
  simp [htwo, hlt, eq_comm]

theorem wordOf_getLsbD (m : Bitmap) (w : Nat) {j : Nat} (hj : j < 16) :
    (wordOf m w).getLsbD j = m.getLsbD (16 * w + j) := by
  simp [wordOf, hj]

/-- Settles O48: bit `j` of word `w` is bit `16 w + j`, which is `k - 1` exactly when `w` and `j` are its quotient and
remainder by 16. -/
theorem codeBitLayout : Obligations.CodeBitLayout := by
  intro k h1 h64
  refine ⟨fun j _ => bitof_getLsbD h1 h64 j, fun w j _ hj => ?_, fun m w j _ hj => wordOf_getLsbD m w hj⟩
  rw [wordOf_getLsbD _ _ hj, bitof_getLsbD h1 h64]
  exact decide_eq_decide.mpr (by omega)

end Sys2Proof.Machine
end

section
/-! The proofs about transactions (20_memory.md): which inputs a step runs and which it stops on, register writes repeated
back to back, and two transactions on different ports in either order. -/

namespace Sys2Proof.Machine

/-! ## The inputs of a step (20_memory.md R36, R37) -/

/-- Settles O9: `State.present` is the state the statement writes out. -/
theorem stepRunsTheDecodedCommand : Obligations.StepRunsTheDecodedCommand :=
  fun _ _ _ _ hl hin hp hd => step_of_decoded hl hin hp hd

theorem step_of_illegal_cfg {s : State} (hl : ¬ s.cfg.Legal) : step s = .refused .badConfiguration := by
  rw [step, nextStep, if_neg hl]

theorem step_of_input {s : State} {x : Txn} {rest : List Txn} (hl : s.cfg.Legal) (hin : s.input = x :: rest) :
    step s = execTxn x (s.present x rest) := by
  rw [step, nextStep, if_pos hl, hin]

theorem execTxn_of_absent_port {s : State} {x : Txn} (hp : x.port.isPresent s.cfg = false) :
    execTxn x s = .fault .noSuchPort := by
  simp [execTxn, hp]

/-- An operand of the wrong length is rejected, on the word's own port and on every other (30_encoding.md R57, R62). -/
theorem decodeAt_of_length_ne {p : Port} {w : Word} {ops : List Byte} (h : ops.length ≠ operandLengthAt p w) :
    decodeAt p w ops = .error .operandLength := by
  unfold operandLengthAt at h
  unfold decodeAt
  split at h
  · next hu => rw [if_pos hu, decode, if_neg h]
  · next hu => rw [if_neg hu, if_neg h]

/-- Settles O13, a clause for each way an input is no transaction. -/
theorem inputsThatAreNoTransaction : Obligations.InputsThatAreNoTransaction := by
  refine ⟨fun _ => step_idle, fun _ => step_of_illegal_cfg, fun s t rest hl hin hp => ?_,
    fun s t rest hl hin hp hlen => ?_⟩
  · rw [step_of_input hl hin]
    exact execTxn_of_absent_port hp
  · rw [step_of_txn hl hin hp, decodeAt_of_length_ne hlen]
    rfl

/-! ## Repeated register writes (20_memory.md R45) -/

section Repeated
variable (f : FaultReg) (m : Bitmap)

theorem FaultReg.assert_assert : (f.assert m).assert m = f.assert m := by
  simp [FaultReg.assert, Function.comp_def, BitVec.or_assoc]

theorem FaultReg.retract_retract : (f.retract m).retract m = f.retract m := by
  simp [FaultReg.retract, Function.comp_def, BitVec.and_assoc]

theorem FaultReg.addSticky_addSticky : (f.addSticky m).addSticky m = f.addSticky m := by
  simp [FaultReg.addSticky, BitVec.or_assoc]

theorem FaultReg.cleared_cleared : f.cleared.cleared = f.cleared := by
  simp [FaultReg.cleared]

end Repeated

section Again
variable {s t : State} {code : Byte} {c : FaultReg → Bitmap → FaultReg}

/-- `run` answered once on the way from `s` to `t`; run again from `t` it gives the same answer and changes nothing else. -/
def AnswersAgain (run : State → Out) (s t : State) : Prop :=
  ∃ a, t.answers = s.answers ++ [a] ∧ run t = .next { t with answers := t.answers ++ [a] }

/-- A command that answers `r` and changes the register by an idempotent `g`, in `s` and in the state it leaves. -/
theorem AnswersAgain.of_write {run : State → Out} (g : FaultReg → FaultReg) {r : Response}
    (hg : g (g s.fr) = g s.fr) (ht : t = (s.setFr (g s.fr)).respond r)
    (hagain : run t = .next ((t.setFr (g t.fr)).respond r)) : AnswersAgain run s t := by
  have hfr : g t.fr = t.fr := by rw [ht]; exact hg
  rw [hfr] at hagain
  subst ht
  exact ⟨_, rfl, hagain⟩

theorem onCode_notInit (hp : s.port = .fr) (hok : s.fr.ok = false) :
    onCode code s c = .next (s.respond (.fr .notInit 0)) := by
  rw [onCode, onUnit_same (unit_eq_fr.mpr hp), whenInit_not hok, raise, hp, Response.zero]

theorem onCode_valid (hp : s.port = .fr) (hok : s.fr.ok = true) (hc : codeInRange code.toNat = true) :
    onCode code s c = .next ((s.setFr (c s.fr (bitof code.toNat))).respond (.fr .ok 0)) := by
  rw [onCode, onUnit_same (unit_eq_fr.mpr hp), whenInit_ok hok, if_pos hc]

theorem onCode_invalid (hp : s.port = .fr) (hok : s.fr.ok = true) (hc : codeInRange code.toNat = false) :
    onCode code s c =
      .next ((s.setFr (s.fr.assert (bitof s.cfg.fcInvalid))).respond (.fr .invalidCode 0)) := by
  rw [onCode, onUnit_same (unit_eq_fr.mpr hp), whenInit_ok hok, if_neg (by simp [hc]), raiseInvalid, raise,
    State.setFr_port, hp, Response.zero]

/-- A command on one fault code repeats alike when its own change `c` is idempotent and leaves `fr.ok`: refused again,
`FC_INVALID` asserted again, or the change made again. -/
theorem onCode_again (hidem : ∀ f m, c (c f m) m = c f m) (hkeep : ∀ f m, (c f m).ok = f.ok) (hp : s.port = .fr)
    (h : onCode code s c = .next t) : AnswersAgain (onCode code · c) s t := by
  cases hok : s.fr.ok with
  | false =>
    obtain rfl := next_inj ((onCode_notInit hp hok).symm.trans h)
    exact .of_write id rfl rfl (onCode_notInit hp hok)
  | true =>
    cases hc : codeInRange code.toNat with
    | false =>
      obtain rfl := next_inj ((onCode_invalid hp hok hc).symm.trans h)
      exact .of_write (·.assert (bitof s.cfg.fcInvalid)) (FaultReg.assert_assert ..) rfl (onCode_invalid hp hok hc)
    | true =>
      obtain rfl := next_inj ((onCode_valid hp hok hc).symm.trans h)
      have hok' : (c s.fr (bitof code.toNat)).ok = true := (hkeep ..).trans hok
      exact .of_write (c · (bitof code.toNat)) (hidem ..) rfl (onCode_valid hp hok' hc)

theorem execFrInit_clears (hp : s.port = .fr) (hw : s.cfg.frWords = 4) :
    execFrInit s = .next ((s.setFr s.fr.cleared).respond (.fr .ok 0)) := by
  rw [execFrInit, onUnit_same (unit_eq_fr.mpr hp), if_pos hw]

theorem execFrInit_fails (hp : s.port = .fr) (hw : s.cfg.frWords ≠ 4) :
    execFrInit s = .next ((s.setFr s.fr.failed).respond (.fr .configError 0)) := by
  rw [execFrInit, onUnit_same (unit_eq_fr.mpr hp), if_neg hw, raise, State.setFr_port, hp, Response.zero]

theorem execFrInit_again (hp : s.port = .fr) (h : execFrInit s = .next t) : AnswersAgain execFrInit s t := by
  by_cases hw : s.cfg.frWords = 4
  · obtain rfl := next_inj ((execFrInit_clears hp hw).symm.trans h)
    exact .of_write FaultReg.cleared (FaultReg.cleared_cleared _) rfl (execFrInit_clears hp hw)
  · obtain rfl := next_inj ((execFrInit_fails hp hw).symm.trans h)
    exact .of_write FaultReg.failed rfl rfl (execFrInit_fails hp hw)

end Again

/-- Settles O60: the three commands on a fault code by `onCode_again`, each change being idempotent, and `FR_INIT` by
`execFrInit_again`. -/
theorem registerWritesAreIdempotent : Obligations.RegisterWritesAreIdempotent := by
  intro s t i code hi hp h
  obtain rfl | rfl | rfl | rfl := hi
  · exact onCode_again FaultReg.assert_assert FaultReg.assert_ok hp h
  · exact onCode_again FaultReg.retract_retract FaultReg.retract_ok hp h
  · exact onCode_again FaultReg.addSticky_addSticky FaultReg.addSticky_ok hp h
  · exact execFrInit_again hp h

/-! ## Effects on different ports (20_memory.md R48) -/

section Effects
variable {a b : Effect} {p q : Port}

theorem Effect.apply_rx_none {e : Effect} (h : e.rx = none) (s : State) : (e.apply s).rx = s.rx := by
  simp [Effect.apply, h]

theorem Effect.apply_rx_some {e : Effect} {i : Nat} {r : Rx} (h : e.rx = some (i, r)) (s : State) :
    (e.apply s).rx = s.rx.set i r := by
  simp [Effect.apply, h]

@[simp] theorem Effect.apply_fr (e : Effect) (s : State) : (e.apply s).fr = e.fr.getD s.fr := rfl
@[simp] theorem Effect.apply_wire (e : Effect) (s : State) : (e.apply s).wire = s.wire ++ e.wire := rfl

theorem Effect.On.fr_eq_none (ha : a.On p) (hp : p ≠ .fr) : a.fr = none :=
  Option.eq_none_iff_forall_ne_some.mpr fun f hf => hp (ha.fr f hf)

theorem Effect.On.wire_eq_nil (ha : a.On p) (hp : p ≠ .tx) : a.wire = [] :=
  not_imp_comm.mp ha.wire hp

/-- An effect on another port leaves reassembler `i` as it is (10_state.md R21). -/
theorem Effect.On.getElem?_rx (ha : a.On p) {i : Nat} (hp : p ≠ .rx i) (s : State) :
    (a.apply s).rx[i]? = s.rx[i]? := by
  cases hrx : a.rx with
  | none => rw [Effect.apply_rx_none hrx]
  | some w =>
    have hi : w.1 ≠ i := fun e => hp (e ▸ ha.rx w.1 w.2 hrx)
    rw [Effect.apply_rx_some hrx, List.getElem?_set_ne hi]

theorem SameAt.refl (s : State) : SameAt s s := ⟨rfl, rfl, rfl, fun _ _ => rfl, fun _ => rfl⟩

/-- A transaction `x` reads the same in `s` and after an effect on a port other than its own. -/
theorem Effect.On.sameAt_present (ha : a.On p) {x : Txn} (hp : p ≠ x.port) (s : State) (rest rest' : List Txn) :
    SameAt (s.present x rest) ((a.apply s).present x rest') where
  cfg := rfl
  port := rfl
  room := rfl
  rx _ hx := (ha.getElem?_rx (fun e => hp (e.trans hx.symm)) s).symm
  fr hx := by
    have hnone := ha.fr_eq_none fun e => hp (e.trans hx.symm)
    simp [hnone]

theorem Effect.On.rx_comm (ha : a.On p) (hb : b.On q) (hpq : p ≠ q) (s : State) :
    (b.apply (a.apply s)).rx = (a.apply (b.apply s)).rx := by
  cases hra : a.rx with
  | none =>
    rw [Effect.apply_rx_none hra]
    cases hrb : b.rx with
    | none => rw [Effect.apply_rx_none hrb, Effect.apply_rx_none hrb, Effect.apply_rx_none hra]
    | some w => rw [Effect.apply_rx_some hrb, Effect.apply_rx_some hrb, Effect.apply_rx_none hra]
  | some v =>
    rw [Effect.apply_rx_some hra]
    cases hrb : b.rx with
    | none => rw [Effect.apply_rx_none hrb, Effect.apply_rx_none hrb, Effect.apply_rx_some hra]
    | some w =>
      have hvw : v.1 ≠ w.1 := fun e => hpq ((ha.rx _ _ hra).trans (e ▸ (hb.rx _ _ hrb).symm))
      rw [Effect.apply_rx_some hrb, Effect.apply_rx_some hrb, Effect.apply_rx_some hra, List.set_comm _ _ hvw]

/-- Of two effects on different ports one at most writes the Fault Register. -/
theorem Effect.On.fr_comm (ha : a.On p) (hb : b.On q) (hpq : p ≠ q) (s : State) :
    (b.apply (a.apply s)).fr = (a.apply (b.apply s)).fr := by
  by_cases hp : p = .fr
  · have hnone := hb.fr_eq_none fun hq => hpq (hp.trans hq.symm)
    simp [hnone]
  · simp [ha.fr_eq_none hp]

/-- Of two effects on different ports one at most emits on `WIRE`. -/
theorem Effect.On.wire_comm (ha : a.On p) (hb : b.On q) (hpq : p ≠ q) (s : State) :
    (b.apply (a.apply s)).wire = (a.apply (b.apply s)).wire := by
  by_cases hp : p = .tx
  · have hnil := hb.wire_eq_nil fun hq => hpq (hp.trans hq.symm)
    simp [hnil]
  · simp [ha.wire_eq_nil hp]

/-- Two appended lists of which at most one passes a filter come out alike in either order. -/
theorem filter_append_comm {α : Type} {P : α → Bool} {l xs ys : List α}
    (h : xs.filter P = [] ∨ ys.filter P = []) : (l ++ xs ++ ys).filter P = (l ++ ys ++ xs).filter P := by
  obtain h | h := h <;> simp [h]

/-- The answers of port `k` come from the one effect on it, if there is one. -/
theorem Effect.On.answersOf_comm (ha : a.On p) (hb : b.On q) (hpq : p ≠ q) (s : State) (k : Port) :
    (b.apply (a.apply s)).answersOf k = (a.apply (b.apply s)).answersOf k := by
  refine congrArg (List.map Answer.response) (filter_append_comm ?_)
  by_cases hp : p = k
  · right
    have hq : q ≠ k := hp ▸ hpq.symm
    simp [hb.answer, hq]
  · left
    simp [ha.answer, hp]

theorem Effect.On.filter_mail (ha : a.On p) {k : Nat} (hp : p ≠ .rx k) : a.mail.filter (·.1 == k) = [] := by
  refine List.filter_eq_nil_iff.mpr fun m hm hk => hp ?_
  rw [ha.mail m hm, beq_iff_eq.mp hk]

/-- The messages of `MB[k]` come from the one effect on `RX[k]`, if there is one. -/
theorem Effect.On.mailboxOf_comm (ha : a.On p) (hb : b.On q) (hpq : p ≠ q) (s : State) (k : Nat) :
    (b.apply (a.apply s)).mailboxOf k = (a.apply (b.apply s)).mailboxOf k := by
  refine congrArg (List.map Prod.snd) (filter_append_comm ?_)
  by_cases hp : p = .rx k
  · exact .inr (hb.filter_mail (hp ▸ hpq.symm))
  · exact .inl (ha.filter_mail hp)

end Effects

/-! ## Two transactions in either order -/

section TwoSteps
variable {s : State} {x y : Txn} {rest : List Txn}

/-- A legal transaction has one effect, in `s` and in any state that reads the same to it. -/
theorem exists_effect (hinv : s.Inv) (hx : x.Legal s.cfg) {t : State} {rest' : List Txn}
    (hsame : SameAt (s.present x rest) (t.present x rest')) :
    ∃ e : Effect, e.On x.port ∧ execTxn x (s.present x rest) = .next (e.apply (s.present x rest)) ∧
      execTxn x (t.present x rest') = .next (e.apply (t.present x rest')) := by
  obtain ⟨-, hnrx, -⟩ := hinv
  exact execTxn_alike hsame rfl hx hnrx

theorem core_run_two {M : Host.Core} {s t u : M.State} (h1 : M.step s = .next t) (h2 : M.step t = .next u) :
    M.run 2 s = .next u := by
  simp [Host.Core.run, h1, h2]

/-- Two steps, each with its effect. -/
theorem run_two {e e' : Effect} (hl : s.cfg.Legal)
    (hx : execTxn x (s.present x (y :: rest)) = .next (e.apply (s.present x (y :: rest))))
    (hy : execTxn y ((e.apply s).present y rest) = .next (e'.apply ((e.apply s).present y rest))) :
    Host.Core.run Sys2Proof.core 2 { s with input := x :: y :: rest } =
      .next (e'.apply ((e.apply s).present y rest)) := by
  have h1 := (step_of_input (s := { s with input := x :: y :: rest }) hl rfl).trans hx
  have h2 := (step_of_input (s := e.apply (s.present x (y :: rest))) hl rfl).trans hy
  exact core_run_two h1 h2

end TwoSteps

/-- Settles O23: each transaction has the same effect before and after the other (`exists_effect`), and effects on different
ports commute. The effect of `a` is taken twice: first `ea'`, only to name the state in which `b` comes second, then `ea`,
with `a` second itself; both leave the same state of `s`. -/
theorem transactionsOnDifferentPortsCommute : Obligations.TransactionsOnDifferentPortsCommute := by
  intro s a b rest hinv ha hb hab
  have ⟨hl, _⟩ := hinv
  obtain ⟨ea', hon', hea', -⟩ :=
    exists_effect (t := s) (rest := b :: rest) (rest' := b :: rest) hinv ha (.refl _)
  obtain ⟨eb, honb, heb, heb'⟩ := exists_effect (rest := a :: rest) hinv hb (hon'.sameAt_present hab s _ rest)
  obtain ⟨ea, hona, hea, hea2⟩ := exists_effect (rest := b :: rest) hinv ha (honb.sameAt_present hab.symm s _ rest)
  have happly : ea'.apply (s.present a (b :: rest)) = ea.apply (s.present a (b :: rest)) :=
    next_inj (hea.symm.trans hea')
  have hsame : (ea'.apply s).present b rest = (ea.apply s).present b rest :=
    (congrArg (State.present · b rest) happly :)
  rw [hsame] at heb'
  exact ⟨_, _, run_two hl hea heb', run_two hl heb hea2, rfl, hona.rx_comm honb hab s, hona.fr_comm honb hab s, rfl,
    hona.wire_comm honb hab s, hona.answersOf_comm honb hab s, hona.mailboxOf_comm honb hab s⟩

end Sys2Proof.Machine
end

section
/-! The proofs about the encoding (30_encoding.md): decoding and encoding undo each other, each word has one row or is
reserved, a command is bound to its port, and images, pseudo-operations and record numbers. -/

namespace Sys2Proof

/-! ## The decoder as an equivalence -/

section Decoder
variable {w : Word} {s : List Byte} {i : Instr} {p : Port}

theorem decode_ok_iff : decode w s = .ok i ↔
    s.length = operandLength w ∧ ∃ o, selectOp w = some o ∧ buildInstr o (argOf w) s = i := by
  unfold decode
  split
  · next hlen => cases selectOp w <;> simp [hlen]
  · next hlen => simp [hlen]

/-- A word that selects no row, or is on another unit's port, takes no operand and is reserved (30_encoding.md R61, R62). -/
theorem decodeAt_reserved (h : selectOp w = none ∨ unitOf w ≠ p.unit) :
    operandLengthAt p w = 0 ∧ decodeAt p w [] = .error .reserved := by
  by_cases hu : unitOf w = p.unit
  · have hsel := h.resolve_right (not_not_intro hu)
    simp [operandLengthAt, decodeAt, decode, operandLength, hu, hsel]
  · simp [operandLengthAt, decodeAt, hu]

end Decoder

/-! ## Decoding an encoding (30_encoding.md R55 to R59) -/

theorem encodesItsRow (i : Instr) : Laws.EncodesItsRow.Statement i := by
  cases i with
  | ckCompute s => exact Laws.EncodesItsRow.ckCompute s
  | ckRender v => exact Laws.EncodesItsRow.ckRender v
  | ckVerify s => exact Laws.EncodesItsRow.ckVerify s
  | rxByte b => exact Laws.EncodesItsRow.rxByte b
  | rxTimeout => exact Laws.EncodesItsRow.rxTimeout
  | txAck => exact Laws.EncodesItsRow.txAck
  | txNak c => exact Laws.EncodesItsRow.txNak c
  | txData s => exact Laws.EncodesItsRow.txData s
  | frInit => exact Laws.EncodesItsRow.frInit
  | frSet c => exact Laws.EncodesItsRow.frSet c
  | frReset c => exact Laws.EncodesItsRow.frReset c
  | frSticky c => exact Laws.EncodesItsRow.frSticky c
  | frPoll n => exact Laws.EncodesItsRow.frPoll n

theorem length_encodeOperand {i : Instr} (hwf : i.wf = true) :
    (encodeOperand i).length = operandLength (encodeWord i) := by
  obtain ⟨-, -, -, hlen⟩ := encodesItsRow i
  exact hlen hwf

theorem decode_encode {i : Instr} (hwf : i.wf = true) : decode (encodeWord i) (encodeOperand i) = .ok i := by
  obtain ⟨o, hsel, hbuild, hlen⟩ := encodesItsRow i
  exact decode_ok_iff.mpr ⟨hlen hwf, o, hsel, hbuild⟩

/-- Settles O2: the word selects the command's own row, and the operand has the length the word fixes. -/
theorem everyCommandDecodesFromItsEncoding : Obligations.EveryCommandDecodesFromItsEncoding :=
  fun _ hwf => decode_encode hwf

/-- Settles O1: each word written out is the encoding of its command. -/
theorem wordsWrittenOutDecode : Obligations.WordsWrittenOutDecode :=
  ⟨decode_encode (i := .ckCompute [0x31]) rfl, decode_encode (i := .ckRender 0x0D) rfl,
    decode_encode (i := .ckVerify [0x31, 0x33, 0x31]) rfl, decode_encode (i := .rxByte 0x31) rfl,
    decode_encode (i := .rxTimeout) rfl, decode_encode (i := .txAck) rfl, decode_encode (i := .txNak 0x07) rfl,
    decode_encode (i := .txData [0x31, 0x41, 0x42]) rfl, decode_encode (i := .frInit) rfl,
    decode_encode (i := .frSet 5) rfl, decode_encode (i := .frReset 5) rfl, decode_encode (i := .frSticky 7) rfl,
    decode_encode (i := .frPoll 1) rfl⟩

/-! ## Encoding what was decoded (30_encoding.md R60, R72) -/

section Build
variable {o : Op} {a : Byte} {s : List Byte}

theorem encodeWord_buildInstr (hlen : s.length = if o.formatB then a.toNat else 0)
    (hzero : o.zeroArg = true → a = 0) : encodeWord (buildInstr o a s) = mkWord o.unit o.number a := by
  cases o with
  | ckCompute | ckVerify | txData =>
    have hlen : s.length = a.toNat := hlen
    have harg : BitVec.ofNat 8 s.length = a := by simp [hlen]
    exact congrArg (mkWord _ _) harg
  | rxTimeout | txAck | frInit => rw [hzero rfl]; rfl
  | ckRender | rxByte | txNak | frSet | frReset | frSticky | frPoll => rfl

theorem encodeOperand_buildInstr (hlen : s.length = if o.formatB then a.toNat else 0) :
    encodeOperand (buildInstr o a s) = s := by
  cases o with
  | ckCompute | ckVerify | txData => rfl
  | _ => exact (List.eq_nil_of_length_eq_zero hlen).symm

theorem wf_buildInstr (hlen : s.length = if o.formatB then a.toNat else 0) : (buildInstr o a s).wf = true := by
  cases o with
  | ckCompute | ckVerify | txData =>
    have hfits : s.length ≤ 255 := by rw [hlen]; exact Nat.le_of_lt_succ a.isLt
    exact decide_eq_true hfits
  | _ => rfl

end Build

/-- Settles O3: the word's three fields are those of the row it selects, and the operand's length is its `arg` or 0. -/
theorem eachWordHasOneMeaning : Obligations.EachWordHasOneMeaning := by
  intro w s i h
  obtain ⟨hlen, o, hsel, rfl⟩ := decode_ok_iff.mp h
  rw [Laws.EncodesItsRow.operandLength_of hsel] at hlen
  obtain ⟨hunit, hnumber, hzero⟩ := selectOp_some.mp hsel
  have hword : encodeWord (buildInstr o (argOf w) s) = w := by
    rw [encodeWord_buildInstr hlen hzero, ← hunit, ← hnumber, mkWord_of_fields]
  exact ⟨Prod.ext hword (encodeOperand_buildInstr hlen), wf_buildInstr hlen⟩

/-! ## One row for a word, or none (30_encoding.md R60, R62, R73) -/

theorem selectOp_of_mem {w : Word} {r : Row} (hr : r ∈ opcodeTable) (h : w &&& r.mask = r.pattern) :
    selectOp w = some r.op :=
  selectOp_some.mpr ((selects_iff hr w).mp (beq_iff_eq.mpr h))

theorem row_eq_of_op_eq : ∀ r ∈ opcodeTable, ∀ r' ∈ opcodeTable, r.op = r'.op → r = r' := by decide

/-- Settles O4: both rows are the one the word selects, and a command has one row. -/
theorem noWordMatchesTwoRows : Obligations.NoWordMatchesTwoRows := by
  intro w r r' hr hr' h h'
  have hsel := selectOp_of_mem hr h
  have hop : r.op = r'.op := Option.some.inj (hsel.symm.trans (selectOp_of_mem hr' h'))
  exact ⟨row_eq_of_op_eq r hr r' hr' hop, hsel⟩

theorem argOf_toNat (w : Word) : (argOf w).toNat = w.toNat % 256 := by
  simp [argOf]

/-- The fields of the words of the three B-format rows (30_encoding.md R57, R59). -/
theorem selects_formatB_iff (w : Word) : (∃ o, selectOp w = some o ∧ o.formatB = true) ↔
    (unitOf w = 1 ∧ (opOf w = 0 ∨ opOf w = 2)) ∨ (unitOf w = 3 ∧ opOf w = 2) := by
  constructor
  · rintro ⟨o, hsel, hB⟩
    obtain ⟨hunit, hnumber, -⟩ := selectOp_some.mp hsel
    rw [hunit, hnumber]
    cases o with
    | ckCompute | ckVerify | txData => decide
    | _ => cases hB
  · rintro (⟨hunit, hop | hop⟩ | ⟨hunit, hop⟩)
    · exact ⟨.ckCompute, selectOp_some.mpr ⟨hunit, hop, nofun⟩, rfl⟩
    · exact ⟨.ckVerify, selectOp_some.mpr ⟨hunit, hop, nofun⟩, rfl⟩
    · exact ⟨.txData, selectOp_some.mpr ⟨hunit, hop, nofun⟩, rfl⟩

/-- Settles O5: the length is `arg` exactly for a word that selects a B-format row. -/
theorem operandLengthFromTheWord : Obligations.OperandLengthFromTheWord := by
  intro w
  simp only [← selects_formatB_iff, ← argOf_toNat]
  cases hsel : selectOp w with
  | none => simp [operandLength, hsel]
  | some o => simp [operandLength, hsel]

theorem selectOp_none {w : Word} : selectOp w = none ↔
    ∀ o : Op, ¬ (unitOf w = o.unit ∧ opOf w = o.number ∧ (o.zeroArg = true → argOf w = 0)) := by
  simp only [← selectOp_some, Option.eq_none_iff_forall_ne_some, ne_eq]

theorem Op.forall_iff {P : Op → Prop} : (∀ o, P o) ↔
    (P .ckCompute ∧ P .ckRender ∧ P .ckVerify) ∧ (P .rxByte ∧ P .rxTimeout) ∧ (P .txAck ∧ P .txNak ∧ P .txData) ∧
    (P .frInit ∧ P .frSet ∧ P .frReset ∧ P .frSticky ∧ P .frPoll) := by
  constructor
  · intro h
    exact ⟨⟨h _, h _, h _⟩, ⟨h _, h _⟩, ⟨h _, h _, h _⟩, h _, h _, h _, h _, h _⟩
  · rintro ⟨⟨_, _, _⟩, ⟨_, _⟩, ⟨_, _, _⟩, _, _, _, _, _⟩ o
    cases o <;> assumption

/-- The list of R62: the fields that no row has. -/
theorem selectOp_none_iff_listed (w : Word) : selectOp w = none ↔
    (unitOf w = 0 ∨ 5 ≤ (unitOf w).toNat) ∨
    (unitOf w = 1 ∧ 3 ≤ (opOf w).toNat) ∨
    (unitOf w = 2 ∧ 2 ≤ (opOf w).toNat) ∨ (unitOf w = 2 ∧ opOf w = 1 ∧ argOf w ≠ 0) ∨
    (unitOf w = 3 ∧ 3 ≤ (opOf w).toNat) ∨ (unitOf w = 3 ∧ opOf w = 0 ∧ argOf w ≠ 0) ∨
    (unitOf w = 4 ∧ 5 ≤ (opOf w).toNat) ∨ (unitOf w = 4 ∧ opOf w = 0 ∧ argOf w ≠ 0) := by
  have hunits : unitOf w = 0 ∨ unitOf w = 1 ∨ unitOf w = 2 ∨ unitOf w = 3 ∨ unitOf w = 4 ∨ 5 ≤ (unitOf w).toNat := by
    bv_omega
  rw [selectOp_none, Op.forall_iff]
  rcases hunits with hu | hu | hu | hu | hu | hu
  · simp [hu, Op.unit]
  · have hops : opOf w ≠ 0 ∧ opOf w ≠ 1 ∧ opOf w ≠ 2 ↔ 3 ≤ (opOf w).toNat := by bv_omega
    simpa [hu, Op.unit, Op.number, Op.zeroArg] using hops
  · have hops : opOf w ≠ 0 ∧ (opOf w = 1 → argOf w ≠ 0) ↔ 2 ≤ (opOf w).toNat ∨ opOf w = 1 ∧ argOf w ≠ 0 := by bv_omega
    simpa [hu, Op.unit, Op.number, Op.zeroArg] using hops
  · have hops : (opOf w = 0 → argOf w ≠ 0) ∧ opOf w ≠ 1 ∧ opOf w ≠ 2 ↔
        3 ≤ (opOf w).toNat ∨ opOf w = 0 ∧ argOf w ≠ 0 := by bv_omega
    simpa [hu, Op.unit, Op.number, Op.zeroArg] using hops
  · have hops : (opOf w = 0 → argOf w ≠ 0) ∧ opOf w ≠ 1 ∧ opOf w ≠ 2 ∧ opOf w ≠ 3 ∧ opOf w ≠ 4 ↔
        5 ≤ (opOf w).toNat ∨ opOf w = 0 ∧ argOf w ≠ 0 := by bv_omega
    simpa [hu, Op.unit, Op.number, Op.zeroArg] using hops
  · have hne : ∀ o : Op, unitOf w ≠ o.unit := by
      intro o h
      have hlt : o.unit.toNat < 5 := by cases o <;> decide
      exact absurd (h ▸ hu) (Nat.not_le.mpr hlt)
    simp [hne, hu]

/-! ## Images (30_encoding.md R76) -/

theorem takeInstr_image {i : Instr} (hwf : i.wf = true) (rest : List Byte) :
    takeInstr (imageOf i ++ rest) = some (i, rest) := by
  have hword : (encodeWord i).extractLsb' 8 8 ++ (encodeWord i).extractLsb' 0 8 = encodeWord i :=
    (BitVec.extractLsb'_append_extractLsb'_eq_extractLsb' rfl).trans BitVec.extractLsb'_eq_self
  simp only [imageOf, imageBytes, List.cons_append, takeInstr, hword, ← length_encodeOperand hwf, List.take_left,
    List.drop_left, decode_encode hwf]

theorem takeImage_step {bs rest : List Byte} {i : Instr} (h : takeInstr bs = some (i, rest)) (fuel : Nat) :
    takeImage (fuel + 1) bs = (takeImage fuel rest).map (i :: ·) := by
  cases bs with
  | nil => simp [takeInstr] at h
  | cons b bs => simp [takeImage, h]

/-- Settles O7, by induction on the list: the first command is taken from the front, whatever comes after it. -/
theorem imageIsReadBack : Obligations.ImageIsReadBack := by
  intro is hwf
  induction is with
  | nil => rfl
  | cons i is ih =>
    obtain ⟨hi, his⟩ := List.forall_mem_cons.mp hwf
    rw [List.flatMap_cons, List.length_cons, takeImage_step (takeInstr_image hi _), ih his]
    rfl

end Sys2Proof

namespace Sys2Proof.Machine

/-! ## Commands on their ports, and reserved words (30_encoding.md R61, R62) -/

theorem unitOf_encodeWord (i : Instr) : unitOf (encodeWord i) = i.unit := by
  cases i <;> exact unitOf_mkWord _ _ _

theorem zero_eq_zeroAnswer (p : Port) (st : Status) : Response.zero p st = Claims.zeroAnswer p st := by
  cases p <;> rfl

theorem raise_eq (st : Status) (s : State) : raise st s = .next (Claims.answered s (Claims.zeroAnswer s.port st)) := by
  rw [raise, zero_eq_zeroAnswer]; rfl

/-- Only `List.set` at the index of the port writes a reassembler (10_state.md R21). -/
theorem exec_other_rx {s u : State} {i : Instr} {k j : Nat} (hp : s.port = .rx k) (h : exec i s = .next u) (hj : j ≠ k) :
    u.rx[j]? = s.rx[j]? := by
  obtain ⟨r, -, rfl⟩ | ⟨bytes, n, -, rfl⟩ | ⟨k', r, out, hk, -, -, rfl⟩ | ⟨f, st, m, -, -, rfl⟩ := exec_cases h
  · rfl
  · rfl
  · obtain rfl : k = k' := Port.rx.inj (hp.symm.trans hk)
    rw [finished_rx, List.getElem?_set_ne hj.symm]
  · rfl

/-- Settles O6: the unit of a command's word is its own, so one port's check decides. -/
theorem commandsAreBoundToTheirPort : Obligations.CommandsAreBoundToTheirPort := by
  refine ⟨fun i p hwf => ⟨fun hp => ?_, fun hp => ?_⟩, fun i s hp => ?_, fun s u i k hp h j hj => exec_other_rx hp h hj⟩
  · rw [decodeAt, if_pos ((unitOf_encodeWord i).trans hp.symm), decode_encode hwf]
  · have hu : unitOf (encodeWord i) ≠ p.unit := unitOf_encodeWord i ▸ hp.symm
    exact (decodeAt_reserved (.inr hu)).2
  · rw [exec_foreign hp, raise_eq]

/-- Settles O10: `selectOp_none_iff_listed` is the list, and a step on a reserved word only answers. -/
theorem reservedWordsAreIllegalAndDoNothing : Obligations.ReservedWordsAreIllegalAndDoNothing := by
  refine ⟨selectOp_none_iff_listed, fun s t rest hl hin hp hres hnil => ?_⟩
  obtain ⟨hlen, hdec⟩ := decodeAt_reserved hres
  refine ⟨hlen, ?_⟩
  rw [step_of_txn hl hin hp, hnil, hdec]
  exact raise_eq .illegal (s.present t rest)

/-! ## Pseudo-operations (30_encoding.md R75) -/

theorem encodeWord_rxByte (b : Byte) : encodeWord (.rxByte b) = 0x2000#16 ||| b.setWidth 16 := by
  revert b; decide

/-- Settles O8: a chunk's word is `RX_BYTE`'s, and both spellings expand to one command. -/
theorem pseudoOperationsExpand : Obligations.PseudoOperationsExpand := by
  refine ⟨fun k bytes room => ?_, fun _ _ _ => rfl⟩
  show (bytes.map Instr.rxByte).map (txnOf k room) = _
  rw [List.map_map]
  refine List.map_congr_left fun b _ => ?_
  rw [← encodeWord_rxByte]; rfl

/-! ## The numbers of the records (30_encoding.md R65, R67 to R69) -/

/-- Settles O47, each number and each record as its definition gives it. -/
theorem responseNumbers : Obligations.ResponseNumbers :=
  ⟨rfl, rfl, fun _ => rfl, fun _ => rfl, fun _ => rfl, fun _ _ => rfl, fun _ _ _ => rfl, fun _ _ => rfl, fun _ => rfl,
    fun _ => rfl, fun _ _ => rfl, fun _ _ _ => rfl, fun _ => rfl⟩

end Sys2Proof.Machine
end

section
/-! The proofs about the Checksum Codec (40_checksum_codec.md): what its three commands answer, and the laws of the sum,
the digits and the comparison. -/

namespace Sys2Proof.Machine

open Sys2Proof.Claims

/-! ## Codec commands on their port -/

section Port
variable {s : State} {operand : List Byte}

theorem onUnit_ck (hp : s.port = .ck) (k : Out) : onUnit 1 s k = k := onUnit_same (unit_eq_ck.mpr hp)

theorem raise_ck (hp : s.port = .ck) (st : Status) : raise st s = .next (answered s (.ck st 0)) := by
  rw [raise_eq, hp, zeroAnswer]

theorem exec_ckCompute_empty (hp : s.port = .ck) (h : operand.length = 0) :
    exec (.ckCompute operand) s = .next (answered s (.ck .illegal 0)) := by
  rw [exec, execCkCompute, onUnit_ck hp, if_pos h, raise_ck hp]

theorem exec_ckCompute_nonempty (hp : s.port = .ck) (h : operand.length ≠ 0) :
    exec (.ckCompute operand) s = .next (answered s (.ck .ok ((compute operand).setWidth 16))) := by
  rw [exec, execCkCompute, onUnit_ck hp, if_neg h]; rfl

theorem exec_ckRender (hp : s.port = .ck) (v : Byte) :
    exec (.ckRender v) s = .next (answered s (.ck .ok (renderHigh v ++ renderLow v))) := by
  rw [exec, execCkRender, onUnit_ck hp]; rfl

theorem exec_ckVerify_short (hp : s.port = .ck) (h : operand.length < 3) :
    exec (.ckVerify operand) s = .next (answered s (.ck .illegal 0)) := by
  rw [exec, execCkVerify, onUnit_ck hp, if_pos h, raise_ck hp]

theorem claims_append (body : List Byte) (ch cl : Byte) :
    claimBody (body ++ [ch, cl]) = body ∧ claimHigh (body ++ [ch, cl]) = ch ∧ claimLow (body ++ [ch, cl]) = cl := by
  simp [claimBody, claimHigh, claimLow]

theorem exec_ckVerify_append (hp : s.port = .ck) {body : List Byte} (hne : body ≠ []) (ch cl : Byte) :
    exec (.ckVerify (body ++ [ch, cl])) s = .next (answered s (.ck .ok (if verify body ch cl then 1 else 0))) := by
  obtain ⟨hbody, hhigh, hlow⟩ := claims_append body ch cl
  have hlen : ¬ (body ++ [ch, cl]).length < 3 := by
    have hpos := List.length_pos_of_ne_nil hne
    simp only [List.length_append, List.length_cons, List.length_nil]; omega
  rw [exec, execCkVerify, onUnit_ck hp, if_neg hlen, hbody, hhigh, hlow]; rfl

end Port

/-! ## The digits as numbers (40_checksum_codec.md R81 to R83) -/

theorem digit_toNat : ∀ d : BitVec 4, (digit d).toNat = hexChar d.toNat := by decide

theorem renderHigh_toNat (v : Byte) : (renderHigh v).toNat = hexChar (v.toNat / 16) := by
  have hnibble : (v.extractLsb' 4 4).toNat = v.toNat / 16 := by have := nibbles v; omega
  rw [renderHigh, digit_toNat, hnibble]

theorem renderLow_toNat (v : Byte) : (renderLow v).toNat = hexChar (v.toNat % 16) := by
  have hnibble : (v.extractLsb' 0 4).toNat = v.toNat % 16 := by have := nibbles v; omega
  rw [renderLow, digit_toNat, hnibble]

theorem append_bytes_toNat (x y : Byte) : (x ++ y).toNat = 256 * x.toNat + y.toNat := by
  rw [BitVec.toNat_append, ← Nat.shiftLeft_add_eq_or_of_lt y.isLt, Nat.shiftLeft_eq, Nat.mul_comm]

/-- The statements' digits are the ones `verify` accepts. -/
theorem digits_iff_verify (s : List Byte) (ch cl : Byte) : Digits s ch cl ↔ verify s ch cl = true := by
  rw [verify_iff, ← BitVec.toNat_inj, ← BitVec.toNat_inj, renderHigh_toNat, renderLow_toNat, compute_toNat]; rfl

theorem verify_eq_false_iff (s : List Byte) (ch cl : Byte) :
    verify s ch cl = false ↔ [ch, cl] ≠ render (compute s) := by
  rw [← Bool.not_eq_true, verify_iff, render]; simp

/-! ## Corruptions, and what the sum does not see (40_checksum_codec.md R87) -/

theorem one_shiftLeft_ne_zero : ∀ k < 8, 1#8 <<< k ≠ 0 := by decide

theorem xor_bit_ne_self (x : Byte) {k : Nat} (hk : k < 8) : x ^^^ (1#8 <<< k) ≠ x := fun h =>
  one_shiftLeft_ne_zero k hk (BitVec.xor_right_inj x |>.mp (h.trans (BitVec.xor_zero).symm))

theorem compute_perm {s s' : List Byte} (h : s.Perm s') : compute s = compute s' := by
  rw [compute, compute, (h.map BitVec.toNat).sum_eq]

/-- What one byte gains and another loses cancels. -/
theorem compute_cancelling (x y z : List Byte) (a b d : Byte) :
    compute (x ++ [a + d] ++ y ++ [b - d] ++ z) = compute (x ++ [a] ++ y ++ [b] ++ z) := by
  simp only [compute_append, compute_singleton]; ring

/-! ## The obligations -/

/-- Settles O27: the last two bytes are the claimed digits, and `verify` accepts exactly the digits of the sum. -/
theorem ckVerifyAnswersWhetherTheDigitsMatch : Obligations.CkVerifyAnswersWhetherTheDigitsMatch := by
  refine fun s hp => ⟨fun operand hlen => exec_ckVerify_short hp hlen, fun body ch cl hne => ?_⟩
  simp only [exec_ckVerify_append hp hne, digits_iff_verify]

/-- Settles O29: only the rendered digits verify, a flipped bit gives another digit, and the sum is additive. -/
theorem codecLaws : Obligations.CodecLaws := by
  refine ⟨fun t p => ?roundTrip, fun s k hk => ⟨?highFlip, ?lowFlip⟩, fun s ch cl => (verify_eq_false_iff s ch cl).mpr,
    fun s b => ?running, fun _ _ => compute_perm, compute_cancelling⟩
  case roundTrip => exact (verify_iff _ _ _).mpr ⟨rfl, rfl⟩
  case highFlip =>
    exact Bool.eq_false_iff.mpr fun h => xor_bit_ne_self _ hk ((verify_iff _ _ _).mp h).1
  case lowFlip =>
    exact Bool.eq_false_iff.mpr fun h => xor_bit_ne_self _ hk ((verify_iff _ _ _).mp h).2
  case running => rw [compute_append, compute_singleton, BitVec.toNat_add]

/-- Settles O25: widening the sum to 16 bits keeps its number. -/
theorem ckComputeAnswersTheSum : Obligations.CkComputeAnswersTheSum := by
  refine fun s operand hp => ⟨exec_ckCompute_empty hp, fun hne => ⟨_, ?_, exec_ckCompute_nonempty hp hne⟩⟩
  rw [BitVec.toNat_setWidth_of_le (by decide), compute_toNat, sum256]

/-- Settles O26: the answer is the two characters side by side. -/
theorem ckRenderAnswersTwoDigits : Obligations.CkRenderAnswersTwoDigits := by
  refine fun s v hp => ⟨_, ?_, exec_ckRender hp v⟩
  rw [append_bytes_toNat, renderHigh_toNat, renderLow_toNat]

/-- Settles O28: each range selects its arm of `hexval`, and `Laws/Codec.lean` has the two inverses. -/
theorem onlyUpperCaseDigitsHaveAValue : Obligations.OnlyUpperCaseDigitsHaveAValue := by
  refine ⟨fun c => ⟨fun hlo hhi => ?decimal, fun hlo hhi => ?letter, fun hout => ?other⟩, hexval_digit, digit_of_hexval⟩
  case decimal =>
    rw [hexval, if_pos ⟨hlo, hhi⟩, Option.map_some, BitVec.toNat_ofNat, Nat.mod_eq_of_lt (by omega)]
  case letter =>
    rw [hexval, if_neg (by omega), if_pos ⟨hlo, hhi⟩, Option.map_some, BitVec.toNat_ofNat, Nat.mod_eq_of_lt (by omega)]
  case other => rw [hexval, if_neg (by omega), if_neg (by omega)]

end Sys2Proof.Machine
end

section
/-! The proofs about the Frame Reassembler (41_frame_reassembler.md): what each byte does in each state, what a result says
about the bytes before it, and runs of bytes that make up a frame. -/

namespace Sys2Proof.Machine

open Sys2Proof.Claims

/-! ## A transaction of one reassembler -/

section Transaction
variable {s : State} {i : Nat} {r r' : Rx} {b : Byte} {res : Result}

/-- On its own port, what `finished` leaves is the state the statements write out. -/
theorem finished_eq_afterRx (hp : s.port = .rx i) :
    finished i (r', res) s = afterRx s i r' res (messageOf res) := by
  cases hroom : s.room <;>
    simp [finished, afterRx, dispatch, State.respond, State.emitMailbox, State.setRx, hp, hroom]

theorem exec_rxByte (hp : s.port = .rx i) (hr : s.rx[i]? = some r) (h : receiveByte s.cfg r b = (r', res)) :
    exec (.rxByte b) s = .next (afterRx s i r' res (messageOf res)) := by
  rw [exec, execRxByte, onInstance_at hp hr, h, finishRx_eq, finished_eq_afterRx hp]

theorem exec_rxTimeout (hp : s.port = .rx i) (hr : s.rx[i]? = some r) :
    exec .rxTimeout s = .next (afterRx s i r.toIdle (.error .timeout) (some .error)) := by
  rw [exec, execRxTimeout, onInstance_at hp hr, finishRx_eq, finished_eq_afterRx hp]; rfl

/-- A command that answers a reassembler result moved the reassembler of its port. -/
theorem exec_rx_result {c : Instr} {u : State} {d : Bool} (hp : s.port = .rx i) (h : exec c s = .next u)
    (ha : u.answers = s.answers ++ [⟨.rx i, .rx .ok res d⟩]) :
    ∃ r out, s.rx[i]? = some r ∧ RxEffect s.cfg r c out ∧ out.2 = res ∧ u = finished i out s := by
  obtain ⟨a, hplain, rfl⟩ | ⟨_, _, hp', -⟩ | ⟨k, r, out, hk, hr, he, rfl⟩ | ⟨_, _, _, hp', -⟩ := exec_cases h
  · obtain ⟨-, hres⟩ := Answer.mk.inj (List.singleton_inj.mp (List.append_cancel_left ha))
    exact absurd hres (hplain.ne_ok res d)
  · simp [hp] at hp'
  · obtain rfl : i = k := Port.rx.inj (hp.symm.trans hk)
    obtain ⟨-, hresponse⟩ := Answer.mk.inj (List.singleton_inj.mp (List.append_cancel_left ha))
    obtain ⟨-, hres, -⟩ := Response.rx.inj hresponse
    exact ⟨r, out, hr, he, hres, rfl⟩
  · simp [hp] at hp'

/-- A response of a step carries no reassembler result, or that of one of the reassemblers. -/
theorem step_answer {u : State} {p : Port} {a : Response} (h : step s = .next u)
    (ha : u.answers = s.answers ++ [⟨p, a⟩]) :
    Plain a ∨ ∃ r ∈ s.rx, ∃ c out d, RxEffect s.cfg r c out ∧ a = .rx .ok out.2 d := by
  obtain ⟨-, rfl⟩ | ⟨x, rest, -, -, hu⟩ := step_effects h
  · simp at ha
  obtain ⟨a', hplain, rfl⟩ | ⟨bytes, n, -, rfl⟩ | ⟨k, r, c, out, -, hr, he, -, rfl⟩ | ⟨c, f, st, m, -, -, -, rfl⟩ := hu <;>
    obtain ⟨-, rfl⟩ := Answer.mk.inj (List.singleton_inj.mp (List.append_cancel_left ha))
  · exact .inl hplain
  · exact .inl (by simp [Plain])
  · exact .inr ⟨r, List.mem_of_getElem? hr, c, out, _, he, rfl⟩
  · exact .inl (by simp [Plain])

end Transaction

/-! ## One byte, by the state it arrives in (41_frame_reassembler.md R96) -/

section Byte
variable {c : Config} {r : Rx} {b : Byte}

theorem receiveByte_nakpend (hs : r.state = .nakpend) : receiveByte c r b = (r.toIdle, .nak (some b)) := by
  rw [receiveByte, if_pos hs]

theorem receiveByte_ack (hs : r.state ≠ .nakpend) : receiveByte c r c.ack = (r.toIdle, .ack) := by
  rw [receiveByte, if_neg hs, if_pos rfl]

theorem receiveByte_nak (hd : c.ControlsDiffer) (hs : r.state ≠ .nakpend) :
    receiveByte c r c.nak = nakByte c r := by
  obtain ⟨-, -, hack⟩ := hd
  rw [receiveByte, if_neg hs, if_neg hack.symm, if_pos rfl]

theorem receiveByte_stx (hd : c.ControlsDiffer) (hs : r.state ≠ .nakpend) :
    receiveByte c r c.stx = (r.startFrame, .none) := by
  obtain ⟨hack, hnak, -⟩ := hd
  rw [receiveByte, if_neg hs, if_neg hack, if_neg hnak, if_pos rfl]

theorem receiveByte_idle (hs : r.state = .idle) (hb : c.isControl b = false) :
    receiveByte c r b = (r, .error .unknownFrameType) := by
  obtain ⟨hstx, hack, hnak⟩ := isControl_false hb
  rw [receiveByte, if_neg (by simp [hs]), if_neg hack, if_neg hnak, if_neg hstx, if_pos hs]

theorem receiveByte_inframe (hs : r.state = .inframe) (hb : c.isControl b = false) :
    receiveByte c r b = appendByte c r b := by
  obtain ⟨hstx, hack, hnak⟩ := isControl_false hb
  rw [receiveByte, if_neg (by simp [hs]), if_neg hack, if_neg hnak, if_neg hstx, if_neg (by simp [hs])]

/-- `FRAME_LEN` fits the 8-bit count (00_scope.md R13 (a)). -/
theorem frameLen_le_255 (hfit : c.BoundFits) : c.frameLen ≤ 255 := by
  simp only [Config.frameLen]; omega

theorem appendByte_past_end (h : c.frameLen ≤ r.count.toNat) :
    appendByte c r b = (r.toIdle, .error .payloadTooLong) := by
  rw [appendByte, if_pos h]

theorem appendByte_open (hfit : c.BoundFits) (h : r.count.toNat + 1 < c.frameLen) :
    appendByte c r b = (r.append b, .none) := by
  have hmax := frameLen_le_255 hfit
  have hcount := append_count r b (by omega)
  rw [appendByte, if_neg (by omega), if_neg (by omega)]

theorem appendByte_last (hfit : c.BoundFits) (h : r.count.toNat + 1 = c.frameLen) :
    appendByte c r b = ((r.append b).toIdle, frameResult c (r.append b).buf) := by
  have hmax := frameLen_le_255 hfit
  have hcount := append_count r b (by omega)
  rw [appendByte, if_neg (by omega), if_pos (by omega)]

end Byte

/-! ## A full frame (41_frame_reassembler.md R104 to R106) -/

section Frame
variable {c : Config} {r : Rx} {t ch cl : Byte} {p : List Byte}

theorem frameResult_parts (hp : p.length = c.payloadBound) :
    frameResult c (t :: (p ++ [ch, cl])) =
      if Digits (t :: p) ch cl then .data t p else .error .checksumMismatch := by
  obtain ⟨htype, hpayload, hhigh, hlow⟩ := frameParts (t := t) (ch := ch) (cl := cl) hp
  simp only [frameResult, htype, hpayload, hhigh, hlow, digits_iff_verify]

theorem exists_frame_parts {buf : List Byte} (h : buf.length = c.frameLen) :
    ∃ t p ch cl, buf = t :: (p ++ [ch, cl]) ∧ p.length = c.payloadBound := by
  simp only [Config.frameLen] at h
  obtain _ | ⟨t, buf⟩ := buf
  · simp at h
  have htail : (buf.drop c.payloadBound).length = 2 := by simp only [List.length_cons, List.length_drop] at *; omega
  obtain ⟨ch, cl, hd⟩ := List.length_eq_two.mp htail
  refine ⟨t, buf.take c.payloadBound, ch, cl, ?_, ?_⟩
  · rw [← hd, List.take_append_drop]
  · simp only [List.length_cons, List.length_take] at *; omega

/-- A `DATA` result read back: the buffer it came from. -/
theorem frame_of_data {buf : List Byte} (hlen : buf.length = c.frameLen) (h : frameResult c buf = .data t p) :
    p.length = c.payloadBound ∧ ∃ ch cl, buf = t :: (p ++ [ch, cl]) ∧ Digits (t :: p) ch cl := by
  obtain ⟨t', p', ch, cl, rfl, hp⟩ := exists_frame_parts hlen
  rw [frameResult_parts hp] at h
  split at h
  · next hdigits =>
    obtain ⟨rfl, rfl⟩ := Result.data.inj h
    exact ⟨hp, ch, cl, rfl, hdigits⟩
  · simp at h

theorem receiveByte_last (hfit : c.BoundFits) (hs : r.state = .inframe) (hcl : c.isControl cl = false)
    (hp : p.length = c.payloadBound) (hcount : r.count.toNat + 1 = c.frameLen)
    (hbuf : r.buf.set r.count.toNat cl = t :: (p ++ [ch, cl])) :
    receiveByte c r cl = (⟨.idle, 0, t :: (p ++ [ch, cl])⟩,
      if Digits (t :: p) ch cl then .data t p else .error .checksumMismatch) := by
  rw [receiveByte_inframe hs hcl, appendByte_last hfit hcount, Rx.toIdle, Rx.append_buf, hbuf, frameResult_parts hp]

/-- A write at the last index. -/
theorem set_last {α : Type} {l : List α} {n : Nat} (h : l.length = n + 1) (x : α) : l.set n x = l.take n ++ [x] := by
  have hset := take_succ_set l n x
  rwa [if_pos (by omega), List.take_of_length_le (by simp [h])] at hset

/-- A digit is no control byte (00_scope.md R13 (c)). -/
theorem isControl_of_digit {b : Byte} (hc : c.ControlsNotDigits) (hb : isUpperHexDigit b = true) :
    c.isControl b = false := by
  obtain ⟨hstx, hack, hnak⟩ := hc
  have hne {x : Byte} (hx : isUpperHexDigit x = false) : b ≠ x := fun e => by simp [← e, hb] at hx
  simp [Config.isControl, hne hstx, hne hack, hne hnak]

theorem isUpperHexDigit_digit : ∀ d, isUpperHexDigit (digit d) = true := by decide

theorem isControl_of_digits {s : List Byte} (hc : c.ControlsNotDigits) (h : Digits s ch cl) :
    c.isControl ch = false ∧ c.isControl cl = false := by
  obtain ⟨rfl, rfl⟩ := (verify_iff _ _ _).mp ((digits_iff_verify _ _ _).mp h)
  exact ⟨isControl_of_digit hc (isUpperHexDigit_digit _), isControl_of_digit hc (isUpperHexDigit_digit _)⟩

end Frame

/-! ## What a result says about the reassembler -/

section Results
variable {c : Config} {r : Rx} {i : Instr} {out : Rx × Result}

/-- 41_frame_reassembler.md R110, first half. -/
theorem RxEffect.idle_of_result (he : RxEffect c r i out) (h : r.Sound c) (hres : out.2 ≠ .none) :
    out.1.state = .idle ∧ out.1.count = 0 := by
  cases he with
  | timeout => exact ⟨rfl, rfl⟩
  | byte b =>
    obtain ⟨-, he⟩ | ⟨-, -, he⟩ | ⟨-, -, -, he⟩ | ⟨-, -, -, he⟩ | ⟨-, -, he⟩ | ⟨hs, -, he⟩ | ⟨-, -, he⟩ :=
      receiveByte_cases c r b <;> rw [he] at hres ⊢
    · exact ⟨rfl, rfl⟩
    · exact ⟨rfl, rfl⟩
    · exact absurd rfl hres
    · exact ⟨rfl, rfl⟩
    · exact absurd rfl hres
    · obtain ⟨-, hzero, -⟩ := h
      exact ⟨hs, hzero (by simp [hs])⟩
    · obtain ⟨-, he⟩ | ⟨-, -, he⟩ | ⟨-, -, he⟩ := appendByte_cases c r b <;> rw [he] at hres ⊢
      · exact ⟨rfl, rfl⟩
      · exact ⟨rfl, rfl⟩
      · exact absurd rfl hres

/-- 41_frame_reassembler.md R110, second half. -/
theorem RxEffect.of_leaving_idle (he : RxEffect c r i out) (hidle : r.state = .idle) (hleft : out.1.state ≠ .idle) :
    (i = .rxByte c.stx ∧ out.1.state = .inframe) ∨
      (i = .rxByte c.nak ∧ c.nakCodeEn = true ∧ out.1.state = .nakpend) := by
  cases he with
  | timeout => exact absurd rfl hleft
  | byte b =>
    obtain ⟨-, he⟩ | ⟨-, -, he⟩ | ⟨-, rfl, hen, he⟩ | ⟨-, -, -, he⟩ | ⟨-, rfl, he⟩ | ⟨-, -, he⟩ | ⟨hs, -, -⟩ :=
      receiveByte_cases c r b
    · exact absurd (by rw [he]; rfl) hleft
    · exact absurd (by rw [he]; rfl) hleft
    · exact .inr ⟨rfl, hen, by rw [he]; rfl⟩
    · exact absurd (by rw [he]; rfl) hleft
    · exact .inl ⟨rfl, by rw [he]; rfl⟩
    · exact absurd (by rw [he]; exact hidle) hleft
    · simp [hidle] at hs

/-- A result is that of an append, or neither `DATA` nor `PAYLOAD_TOO_LONG`. -/
theorem RxEffect.append_or (he : RxEffect c r i out) :
    (∃ b, i = .rxByte b ∧ r.state = .inframe ∧ out = appendByte c r b) ∨
      (∀ t p, out.2 ≠ .data t p) ∧ out.2 ≠ .error .payloadTooLong := by
  cases he with
  | timeout => exact .inr (by simp)
  | byte b =>
    obtain ⟨-, he⟩ | ⟨-, -, he⟩ | ⟨-, -, -, he⟩ | ⟨-, -, -, he⟩ | ⟨-, -, he⟩ | ⟨-, -, he⟩ | ⟨hs, -, he⟩ :=
      receiveByte_cases c r b <;> rw [he]
    · exact .inr (by simp)
    · exact .inr (by simp)
    · exact .inr (by simp)
    · exact .inr (by simp)
    · exact .inr (by simp)
    · exact .inr (by simp)
    · exact .inl ⟨b, rfl, hs, rfl⟩

/-- A `DATA` result comes only from the byte that fills a frame. -/
theorem RxEffect.of_data (he : RxEffect c r i out) (hfit : c.BoundFits) {t : Byte} {p : List Byte}
    (hres : out.2 = .data t p) :
    ∃ b, i = .rxByte b ∧ r.state = .inframe ∧ r.count.toNat + 1 = c.frameLen ∧
      frameResult c (r.buf.set r.count.toNat b) = .data t p := by
  have hmax := frameLen_le_255 hfit
  obtain ⟨b, hi, hs, rfl⟩ | ⟨hdata, -⟩ := he.append_or
  · obtain ⟨-, he⟩ | ⟨hlt, hfull, he⟩ | ⟨-, -, he⟩ := appendByte_cases c r b <;> rw [he] at hres
    · simp at hres
    · exact ⟨b, hi, hs, (append_count r b (by omega)).symm.trans hfull, hres⟩
    · simp at hres
  · exact absurd hres (hdata t p)

/-- 41_frame_reassembler.md R107: the defensive arm is dead where 10_state.md R20 holds. -/
theorem RxEffect.ne_payloadTooLong (he : RxEffect c r i out) (h : r.Sound c) :
    out.2 ≠ .error .payloadTooLong := by
  obtain ⟨b, -, hs, rfl⟩ | ⟨-, hne⟩ := he.append_or
  · obtain ⟨hlt, -⟩ := h
    have hlt := hlt hs
    obtain ⟨hge, -⟩ | ⟨-, -, he⟩ | ⟨-, -, he⟩ := appendByte_cases c r b
    · omega
    · rw [he, frameResult]; split <;> simp
    · simp [he]
  · exact hne

end Results

/-! ## No control byte in a frame (41_frame_reassembler.md R96, R112) -/

section NoControl
variable {c : Config} {r : Rx}

/-- No byte of the frame in progress, if there is one, is a control byte. -/
def Rx.NoControl (c : Config) (r : Rx) : Prop :=
  r.state = .inframe → ∀ b ∈ r.buf.take r.count.toNat, c.isControl b = false

theorem Rx.noControl_of_not_inframe (hs : r.state ≠ .inframe) : r.NoControl c := fun h => absurd h hs

theorem Rx.noControl_startFrame : r.startFrame.NoControl c := by
  intro _ b hb
  simp at hb

theorem Rx.NoControl.append (h : r.NoControl c) (hs : r.state = .inframe) (hcount : r.count.toNat < 255) {b : Byte}
    (hb : c.isControl b = false) : (r.append b).NoControl c := by
  intro _ x hx
  rw [Machine.append_count r b hcount, Rx.append_buf, take_succ_set, List.mem_append] at hx
  obtain hx | hx := hx
  · exact h hs x hx
  · split at hx
    · rwa [List.mem_singleton.mp hx]
    · simp at hx

theorem RxEffect.noControl {i : Instr} {out : Rx × Result} (he : RxEffect c r i out) (h : r.NoControl c)
    (hfit : c.BoundFits) : out.1.NoControl c := by
  have hmax := frameLen_le_255 hfit
  have hidle (q : Rx) : q.toIdle.NoControl c := Rx.noControl_of_not_inframe nofun
  cases he with
  | timeout => exact hidle r
  | byte b =>
    obtain ⟨-, he⟩ | ⟨-, -, he⟩ | ⟨-, -, -, he⟩ | ⟨-, -, -, he⟩ | ⟨-, -, he⟩ | ⟨-, -, he⟩ | ⟨hs, hb, he⟩ :=
      receiveByte_cases c r b <;> rw [he]
    · exact hidle r
    · exact hidle r
    · exact Rx.noControl_of_not_inframe nofun
    · exact hidle r
    · exact Rx.noControl_startFrame
    · exact h
    · obtain ⟨-, he⟩ | ⟨-, -, he⟩ | ⟨hlt, -, he⟩ := appendByte_cases c r b <;> rw [he]
      · exact hidle r
      · exact hidle _
      · exact h.append hs (by omega) hb

end NoControl

/-! ## Runs of bytes that give no result -/

section Silent
variable {c : Config} {r r' : Rx} {bs : List Byte}

/-- Receiving `bs` takes a reassembler from the first state to the second with no result on the way. -/
inductive Silent (c : Config) : Rx → List Byte → Rx → Prop
  | nil (r : Rx) : Silent c r [] r
  | cons {r r' r'' : Rx} {b : Byte} {bs : List Byte} (hb : receiveByte c r b = (r', .none))
      (hbs : Silent c r' bs r'') : Silent c r (b :: bs) r''

/-- Append after append (41_frame_reassembler.md R103). -/
def Rx.appendAll (r : Rx) (bs : List Byte) : Rx := bs.foldl Rx.append r

@[simp] theorem Rx.appendAll_nil (r : Rx) : r.appendAll [] = r := rfl
@[simp] theorem Rx.appendAll_cons (r : Rx) (b : Byte) (bs : List Byte) :
    r.appendAll (b :: bs) = (r.append b).appendAll bs := rfl

/-- Bytes that are no control bytes and do not fill the frame are appended. -/
theorem silent_appendAll (hfit : c.BoundFits) (hs : r.state = .inframe) (hlen : r.count.toNat + bs.length < c.frameLen)
    (hbs : ∀ b ∈ bs, c.isControl b = false) : Silent c r bs (r.appendAll bs) := by
  induction bs generalizing r with
  | nil => exact .nil r
  | cons b bs ih =>
    obtain ⟨hb, hbs⟩ := List.forall_mem_cons.mp hbs
    rw [List.length_cons] at hlen
    have hmax := frameLen_le_255 hfit
    have hcount := append_count r b (by omega)
    refine .cons ?_ (ih hs (by omega) hbs)
    rw [receiveByte_inframe hs hb, appendByte_open hfit (by omega)]

theorem Rx.appendAll_state : (r.appendAll bs).state = r.state := by
  induction bs generalizing r with
  | nil => rfl
  | cons b bs ih => rw [Rx.appendAll_cons, ih, Rx.append_state]

theorem Rx.appendAll_length_buf : (r.appendAll bs).buf.length = r.buf.length := by
  induction bs generalizing r with
  | nil => rfl
  | cons b bs ih => rw [Rx.appendAll_cons, ih, Rx.append_buf, List.length_set]

theorem Rx.appendAll_count (h : r.count.toNat + bs.length ≤ 255) :
    (r.appendAll bs).count.toNat = r.count.toNat + bs.length := by
  induction bs generalizing r with
  | nil => rfl
  | cons b bs ih =>
    rw [List.length_cons] at h ⊢
    have hcount := Machine.append_count r b (by omega)
    rw [Rx.appendAll_cons, ih (by omega)]
    omega

/-- The bytes appended stand after those that were there. -/
theorem Rx.appendAll_take (h : r.count.toNat + bs.length ≤ 255) (hbuf : r.count.toNat + bs.length ≤ r.buf.length) :
    (r.appendAll bs).buf.take (r.count.toNat + bs.length) = r.buf.take r.count.toNat ++ bs := by
  induction bs generalizing r with
  | nil => simp
  | cons b bs ih =>
    rw [List.length_cons] at h hbuf ⊢
    have hcount := Machine.append_count r b (by omega)
    have hrest := ih (r := r.append b) (by omega) (by rw [Rx.append_buf, List.length_set]; omega)
    rw [hcount, Rx.append_buf, take_succ_set, if_pos (by omega), List.append_assoc] at hrest
    rw [Rx.appendAll_cons, Nat.add_comm bs.length, ← Nat.add_assoc]
    exact hrest

/-- All of a frame but its last digit, from `IDLE` or from inside another frame (41_frame_reassembler.md R100, R101, R103). -/
theorem silent_frame {t ch : Byte} {p : List Byte} (hd : c.ControlsDiffer) (hfit : c.BoundFits)
    (hs : r.state ≠ .nakpend) (hbuf : r.buf.length = c.frameLen) (hp : p.length = c.payloadBound)
    (hclean : ∀ b ∈ t :: (p ++ [ch]), c.isControl b = false) :
    ∃ r', Silent c r (c.stx :: t :: (p ++ [ch])) r' ∧ r'.state = .inframe ∧ r'.count.toNat + 1 = c.frameLen ∧
      ∀ cl, r'.buf.set r'.count.toNat cl = t :: (p ++ [ch, cl]) := by
  have hmax := frameLen_le_255 hfit
  have hlen : (t :: (p ++ [ch])).length + 1 = c.frameLen := by simp [Config.frameLen, hp]
  have hzero : r.startFrame.count.toNat = 0 := rfl
  have hcount := Rx.appendAll_count (r := r.startFrame) (bs := t :: (p ++ [ch])) (by omega)
  have htake := Rx.appendAll_take (r := r.startFrame) (bs := t :: (p ++ [ch])) (by omega)
    (by rw [Rx.startFrame_buf]; omega)
  refine ⟨_, .cons (receiveByte_stx hd hs) (silent_appendAll hfit rfl (by omega) hclean), Rx.appendAll_state,
    by omega, fun cl => ?_⟩
  rw [set_last (by rw [Rx.appendAll_length_buf, Rx.startFrame_buf]; omega), hcount, htake]
  simp

end Silent

/-! ## Runs of transactions on one reassembler -/

section Runs
variable {s : State} {i : Nat} {r r' : Rx} {rest : List Txn}

theorem core_run_succ {M : Host.Core} {s t : M.State} (h : M.step s = .next t) (k : Nat) :
    M.run (k + 1) s = M.run k t := by
  simp [Host.Core.run, h]

theorem core_run_add {M : Host.Core} {s t : M.State} {m : Nat} (h : M.run m s = .next t) (n : Nat) :
    M.run (m + n) s = M.run n t := by
  induction m generalizing s with
  | zero =>
    obtain rfl : s = t := by simpa [Host.Core.run] using h
    rw [Nat.zero_add]
  | succ m ih =>
    cases hstep : M.step s with
    | next s' =>
      rw [core_run_succ hstep] at h
      rw [Nat.add_right_comm, core_run_succ hstep]
      exact ih h
    | fault | refused => simp [Host.Core.run, hstep] at h

/-- A step on a received byte. -/
theorem step_rxByte {b : Byte} {room : Bool} {res : Result} (hl : s.cfg.Legal) (hi : i < s.cfg.nrx)
    (hr : s.rx[i]? = some r) (hin : s.input = txnOf i room (.rxByte b) :: rest)
    (h : receiveByte s.cfg r b = (r', res)) :
    step s = .next (afterRx (s.present (txnOf i room (.rxByte b)) rest) i r' res (messageOf res)) := by
  have hd : decodeAt (.rx i) (encodeWord (.rxByte b)) [] = .ok (.rxByte b) := by
    obtain ⟨hbound, -, -⟩ := commandsAreBoundToTheirPort
    exact (hbound (.rxByte b) (.rx i) rfl).1 rfl
  rw [step_of_decoded hl hin (by simpa [txnOf, Instr.portOn, Port.isPresent] using hi) hd]
  exact exec_rxByte rfl hr h

/-- The state after `n` transactions on `RX[i]` without a result, with what the last one latched. -/
def State.afterSilent (s : State) (i : Nat) (r : Rx) (n : Nat) (rest : List Txn) (port : Port) (room : Bool) : State :=
  { s with
    input := rest
    port := port
    room := room
    rx := s.rx.set i r
    answers := s.answers ++ List.replicate n ⟨.rx i, .rx .ok .none false⟩ }

theorem afterSilent_zero (hr : s.rx[i]? = some r) : s.afterSilent i r 0 s.input s.port s.room = s := by
  obtain ⟨hi, rfl⟩ := List.getElem?_eq_some_iff.mp hr
  simp [State.afterSilent]

/-- One transaction without a result, then `n` more. -/
theorem afterSilent_afterRx {x : Txn} {xs : List Txn} (n : Nat) (port : Port) (room : Bool) :
    (afterRx (s.present x xs) i r .none none).afterSilent i r' n rest port room =
      s.afterSilent i r' (n + 1) rest port room := by
  cases hroom : x.room <;> simp [State.afterSilent, afterRx, State.present, List.replicate_succ, hroom]

theorem Silent.run {bytes : List (Byte × Bool)} (hl : s.cfg.Legal) (hr : s.rx[i]? = some r) (hi : i < s.cfg.nrx)
    (hin : s.input = receiveTxns i bytes ++ rest) (h : Silent s.cfg r (bytes.map Prod.fst) r') :
    ∃ port room, Host.Core.run Sys2Proof.core bytes.length s =
      .next (s.afterSilent i r' bytes.length rest port room) := by
  induction bytes generalizing s r with
  | nil =>
    cases h
    obtain rfl : s.input = rest := hin
    exact ⟨s.port, s.room, congrArg _ (afterSilent_zero hr).symm⟩
  | cons e bytes ih =>
    obtain _ | ⟨hb, hbytes⟩ := h
    have hstep := step_rxByte hl hi hr hin hb
    have hlt : i < s.rx.length := (List.getElem?_eq_some_iff.mp hr).1
    obtain ⟨port, room, hrun⟩ :=
      ih (s := afterRx (s.present _ _) i _ .none none) hl (List.getElem?_set_self hlt) hi rfl hbytes
    exact ⟨port, room, (core_run_succ hstep _).trans (hrun.trans (congrArg _ (afterSilent_afterRx _ _ _)))⟩

/-- A byte of any result after those without one. -/
theorem Silent.run_next {bytes : List (Byte × Bool)} {b : Byte} {last : Bool} {q : Rx} {res : Result}
    (hl : s.cfg.Legal) (hr : s.rx[i]? = some r) (hi : i < s.cfg.nrx)
    (hin : s.input = receiveTxns i (bytes ++ [(b, last)]) ++ rest)
    (h : Silent s.cfg r (bytes.map Prod.fst) r') (hb : receiveByte s.cfg r' b = (q, res)) :
    Host.Core.run Sys2Proof.core (bytes.length + 1) s =
      .next (afterRx (s.afterSilent i r' bytes.length rest (.rx i) last) i q res (messageOf res)) := by
  have hlt : i < s.rx.length := (List.getElem?_eq_some_iff.mp hr).1
  have hin : s.input = receiveTxns i bytes ++ txnOf i last (.rxByte b) :: rest := by simpa [receiveTxns] using hin
  obtain ⟨port, room, hrun⟩ := h.run hl hr hi hin
  have hstep := step_rxByte (s := s.afterSilent i r' bytes.length (txnOf i last (.rxByte b) :: rest) port room) hl hi
    (List.getElem?_set_self hlt) rfl hb
  exact (core_run_add hrun 1).trans (core_run_succ hstep 0)

end Runs

/-! ## The obligations -/

/-- Settles O18: a step writes at most the reassembler of its port, by `RxEffect.noControl`. -/
theorem frameInProgressHoldsNoControlByte : Obligations.FrameInProgressHoldsNoControlByte := by
  intro s u ⟨hl, _⟩ hclean h
  obtain ⟨-, rfl⟩ | ⟨x, rest, -, -, hu⟩ := step_effects h
  · exact hclean
  obtain ⟨a, -, rfl⟩ | ⟨bytes, n, -, rfl⟩ | ⟨k, r, i, out, -, hr, he, -, rfl⟩ | ⟨i, f, st, m, -, -, -, rfl⟩ := hu
  · exact hclean
  · exact hclean
  · intro q hq
    obtain hq | rfl := List.mem_or_eq_of_mem_set hq
    · exact hclean q hq
    · exact he.noControl (hclean r (List.mem_of_getElem? hr)) hl.1
  · exact hclean

/-- Settles O19: the arm as `appendByte_past_end` has it; `RxEffect.ne_payloadTooLong` shuts it out of every step. -/
theorem payloadTooLongNeverHappens : Obligations.PayloadTooLongNeverHappens := by
  refine ⟨fun s i r b hp hr hs hb hlen => ?arm, fun s u p a ⟨_, _, _, hsound, _⟩ h ha st d => ?dead⟩
  case arm => exact exec_rxByte hp hr ((receiveByte_inframe hs hb).trans (appendByte_past_end hlen))
  case dead =>
    obtain hplain | ⟨r, hr, c, out, d', he, rfl⟩ := step_answer h ha
    · exact hplain.ne_error st _ d
    · simp [he.ne_payloadTooLong (hsound r hr)]

/-- Settles O35: the frame stays open, and the count does not wrap below 255. -/
theorem dataByteIsAppended : Obligations.DataByteIsAppended := by
  intro s i r b hfit hp hr hs hb hlen
  have hmax := frameLen_le_255 hfit
  have hrun := exec_rxByte hp hr ((receiveByte_inframe hs hb).trans (appendByte_open hfit hlen))
  rw [Rx.append, hs] at hrun
  exact ⟨(r.append b).count, append_count r b (by omega), hrun⟩

/-- Settles O36: the byte fills the frame (`receiveByte_last`), and the digits decide the result. -/
theorem fullFrameIsVerifiedAndStripped : Obligations.FullFrameIsVerifiedAndStripped := by
  intro s i r t p ch cl hfit hp hr hs hcl hlen hcount hbuf
  rw [exec_rxByte hp hr (receiveByte_last hfit hs hcl hlen hcount hbuf)]
  split <;> rfl

/-- Settles O38: the answer is the result of the port's own reassembler (`exec_rx_result`). -/
theorem resultsLeaveTheInstanceIdle : Obligations.ResultsLeaveTheInstanceIdle := by
  intro s u i r r' c res d ⟨_, _, _, hsound, _⟩ hp hr h hr' ha
  obtain ⟨q, out, hq, he, rfl, rfl⟩ := exec_rx_result hp h ha
  obtain rfl : r = q := Option.some.inj (hr.symm.trans hq)
  have hlt : i < s.rx.length := (List.getElem?_eq_some_iff.mp hr).1
  obtain rfl : out.1 = r' := by simpa [hlt] using hr'
  exact ⟨he.idle_of_result (hsound r (List.mem_of_getElem? hr)), fun _ => he.of_leaving_idle⟩

/-- Settles O39: the byte filled the frame (`RxEffect.of_data`), whose parts are those of the result (`frame_of_data`) and
whose bytes before the last are the buffer's. -/
theorem dataResultsAreVerifiedFrames : Obligations.DataResultsAreVerifiedFrames := by
  intro s u i r c t p d ⟨hl, _, _, hsound, _⟩ hp hr hclean h ha
  obtain ⟨q, out, hq, he, hres, -⟩ := exec_rx_result hp h ha
  obtain rfl : r = q := Option.some.inj (hr.symm.trans hq)
  obtain ⟨-, -, -, hbuf⟩ := hsound r (List.mem_of_getElem? hr)
  obtain ⟨b, rfl, hs, hcount, hframe⟩ := he.of_data hl.1 hres
  obtain ⟨hlen, ch, cl, hparts, hdigits⟩ := frame_of_data (by simpa using hbuf) hframe
  have hset : r.buf.take r.count.toNat ++ [b] = t :: (p ++ [ch]) ++ [cl] := by
    rw [← set_last (by omega), hparts]; simp
  obtain ⟨htake, hb⟩ := List.append_inj' hset rfl
  obtain rfl : b = cl := List.singleton_inj.mp hb
  refine ⟨hlen, fun x hx => hclean hs x ?_, ch, b, hdigits, rfl, hs, htake⟩
  rw [htake, ← List.cons_append]
  exact List.mem_append_left _ hx

/-- Settles O40: the delimiter and all bytes but the last give no result (`silent_appendAll`, `Silent.run`), and the last one
fills the frame (`receiveByte_last`). -/
theorem aFrameAfterItsDelimiterIsReceivedWhole : Obligations.AFrameAfterItsDelimiterIsReceivedWhole := by
  intro s i r t p ch cl bytes last rest ⟨hl, hnrx, _, hsound, _⟩ hr hs hlen hclean hdigits hbytes hin
  have ⟨hfit, hdiffer, hnodigit, _⟩ := hl
  obtain ⟨-, -, -, hbuf⟩ := hsound r (List.mem_of_getElem? hr)
  obtain ⟨hch, hcl⟩ := isControl_of_digits hnodigit hdigits
  have hlt : i < s.rx.length := (List.getElem?_eq_some_iff.mp hr).1
  obtain ⟨r', hsilent, hs', hcount, hset⟩ := silent_frame (t := t) (ch := ch) hdiffer hfit hs hbuf hlen
    (by simpa [or_imp, forall_and, hch] using hclean)
  have hbytes : bytes.map Prod.fst = s.cfg.stx :: t :: (p ++ [ch]) :=
    (List.append_inj' (t₁ := [cl]) (t₂ := [cl]) (by simpa using hbytes) rfl).1
  have hn : bytes.length = s.cfg.payloadBound + 3 := by simpa [hlen] using congrArg List.length hbytes
  have hrun := (hbytes ▸ hsilent).run_next hl hr (hnrx ▸ hlt) hin (receiveByte_last hfit hs' hcl hlen hcount (hset cl))
  rw [hn, if_pos hdigits] at hrun
  refine hrun.trans (congrArg _ ?_)
  cases last <;> simp [State.afterSilent, afterRx, messageOf]

/-- Settles O41: the bytes are appended without a result (`silent_appendAll`, `Silent.run`). -/
theorem aShortFrameNeverCompletesByItself : Obligations.AShortFrameNeverCompletesByItself := by
  intro s i r bytes rest ⟨hl, hnrx, _, hsound, _⟩ hr hs hcount hlen hclean hin
  obtain ⟨-, -, -, hbuf⟩ := hsound r (List.mem_of_getElem? hr)
  have hmax := frameLen_le_255 hl.1
  have hzero : r.count.toNat = 0 := by simp [hcount]
  have hmap : (bytes.map Prod.fst).length = bytes.length := List.length_map _
  have hsilent := silent_appendAll (bs := bytes.map Prod.fst) hl.1 hs (by omega) (List.forall_mem_map.mpr hclean)
  have hlt : i < s.rx.length := (List.getElem?_eq_some_iff.mp hr).1
  obtain ⟨port, room, hrun⟩ := hsilent.run hl hr (hnrx ▸ hlt) hin
  have hcount := Rx.appendAll_count (r := r) (bs := bytes.map Prod.fst) (by omega)
  have htake := Rx.appendAll_take (r := r) (bs := bytes.map Prod.fst) (by omega) (by omega)
  rw [hzero, hmap, Nat.zero_add] at hcount htake
  exact ⟨_, _, hrun, rfl, Rx.appendAll_state.trans hs, hcount, htake, rfl, rfl, rfl, rfl, rfl⟩

/-- Settles O30, from `receiveByte_nakpend`. -/
theorem pendingNakTakesTheNextByteAsItsCode : Obligations.PendingNakTakesTheNextByteAsItsCode :=
  fun _ _ _ _ hp hr hs => exec_rxByte hp hr (receiveByte_nakpend hs)

/-- Settles O31, from `receiveByte_ack`. -/
theorem ackByteGivesAckAndAbandonsTheFrame : Obligations.AckByteGivesAckAndAbandonsTheFrame :=
  fun _ _ _ hp hr hs => exec_rxByte hp hr (receiveByte_ack hs)

/-- Settles O32, from `receiveByte_nak` and the two arms of `nakByte`. -/
theorem nakByteGivesNakOrAwaitsItsCode : Obligations.NakByteGivesNakOrAwaitsItsCode := by
  intro s i r hd hp hr hs
  refine ⟨fun hen => exec_rxByte hp hr ?_, fun hen => exec_rxByte hp hr ?_⟩
  · rw [receiveByte_nak hd hs, nakByte, if_neg (by simp [hen])]; rfl
  · rw [receiveByte_nak hd hs, nakByte, if_pos hen]; rfl

/-- Settles O33, from `receiveByte_stx`. -/
theorem startDelimiterStartsAFreshFrame : Obligations.StartDelimiterStartsAFreshFrame :=
  fun _ _ _ hd hp hr hs => exec_rxByte hp hr (receiveByte_stx hd hs)

/-- Settles O34, from `receiveByte_idle`. -/
theorem strayByteInIdleIsAnUnknownFrameType : Obligations.StrayByteInIdleIsAnUnknownFrameType :=
  fun _ _ _ _ hp hr hs hb => exec_rxByte hp hr (receiveByte_idle hs hb)

/-- Settles O37, from `exec_rxTimeout`, which asks nothing of the reassembler's state. -/
theorem timeoutDiscardsThePartialFrame : Obligations.TimeoutDiscardsThePartialFrame :=
  fun _ _ _ hp hr => exec_rxTimeout hp hr

end Sys2Proof.Machine
end

section
/-! The proofs about the Message Formatter and the dispatch stage (42_message_formatter.md): the three emitting commands at
the capacity gate, the table of the dispatch stage, what mailbox room changes, and where emissions come from. -/

namespace Sys2Proof.Machine

open Sys2Proof.Claims

/-! ## Formatter commands on their port (42_message_formatter.md R126 to R131) -/

section Formatter
variable {s : State} {operand : List Byte}

theorem onUnit_tx (hp : s.port = .tx) (k : Out) : onUnit 3 s k = k := onUnit_same (unit_eq_tx.mpr hp)

theorem raise_tx (hp : s.port = .tx) (st : Status) : raise st s = .next (answered s (.tx st false 0)) := by
  rw [raise_eq, hp, zeroAnswer]

/-- The gate leaves the state the statements write out, with the number of bytes built. -/
theorem gate_eq_afterTx (hp : s.port = .tx) (bytes : List Byte) :
    gate bytes s = .next (afterTx s bytes (BitVec.ofNat 9 bytes.length)) := by
  cases hroom : s.room <;> simp [gate, afterTx, State.respond, State.emitWire, hp, hroom]

theorem exec_txData_empty (hp : s.port = .tx) (h : operand.length = 0) :
    exec (.txData operand) s = .next (answered s (.tx .illegal false 0)) := by
  rw [exec, execTxData, onUnit_tx hp, if_pos h, raise_tx hp]

theorem exec_txData_tooLong (hp : s.port = .tx) (h : s.cfg.payloadBound + 1 < operand.length) :
    exec (.txData operand) s = .next (answered s (.tx .tooLong false 0)) := by
  rw [exec, execTxData, onUnit_tx hp, if_neg (by omega), if_pos h, raise_tx hp]

theorem exec_txData_frame (hp : s.port = .tx) (hne : operand.length ≠ 0)
    (hle : operand.length ≤ s.cfg.payloadBound + 1) :
    exec (.txData operand) s = .next (afterTx s (frameBytes s.cfg operand)
      (BitVec.ofNat 9 (frameBytes s.cfg operand).length)) := by
  rw [exec, execTxData, onUnit_tx hp, if_neg hne, if_neg (by omega), gate_eq_afterTx hp]

end Formatter

theorem length_frameBytes (c : Config) (operand : List Byte) :
    (frameBytes c operand).length = operand.length + 3 := by
  simp [frameBytes, render]

/-- The two rendered characters are the digits the statements write out (40_checksum_codec.md R81). -/
theorem digits_render (operand : List Byte) :
    Digits operand (renderHigh (compute operand)) (renderLow (compute operand)) :=
  (digits_iff_verify _ _ _).mpr ((verify_iff _ _ _).mpr ⟨rfl, rfl⟩)

/-- Settles O44: the two length checks come before the gate, and a frame of at most 256 bytes has its length in 9 bits. -/
theorem txDataEmitsTheFrame : Obligations.TxDataEmitsTheFrame := by
  refine fun s operand hfit hp => ⟨exec_txData_empty hp, exec_txData_tooLong hp, fun hne hle => ?_⟩
  refine ⟨_, _, _, digits_render operand, ?_, exec_txData_frame hp hne hle⟩
  rw [length_frameBytes, BitVec.toNat_ofNat, Nat.mod_eq_of_lt (by omega)]

/-- Settles O42, from `gate_eq_afterTx` with one byte. -/
theorem txAckEmitsTheAckByte : Obligations.TxAckEmitsTheAckByte := by
  intro s hp
  rw [exec, execTxAck, onUnit_tx hp, gate_eq_afterTx hp]; rfl

/-- Settles O43, from `gate_eq_afterTx` with one byte; the code is not used. -/
theorem txNakEmitsTheNakByteOnly : Obligations.TxNakEmitsTheNakByteOnly := by
  intro s code hp
  rw [exec, execTxNak, onUnit_tx hp, gate_eq_afterTx hp]; rfl

/-! ## The dispatch stage (42_message_formatter.md R132, R133, R135) -/

@[simp] theorem dispatch_room (res : Result) : dispatch res true = messageOf res := rfl
@[simp] theorem dispatch_full (res : Result) : dispatch res false = none := rfl

/-- Every result but `NONE` has a message. -/
theorem isSome_messageOf {res : Result} : (messageOf res).isSome = true ↔ res ≠ .none := by
  cases res <;> simp [messageOf]

/-- Settles O45: the room bit decides whether there is a message, and `messageOf` which one. -/
theorem dispatchStageTable : Obligations.DispatchStageTable := by
  refine ⟨fun room => ?_, dispatch_full, fun e => dispatch_room (.error e), fun t p => dispatch_room (.data t p),
    dispatch_room .ack, fun code => dispatch_room (.nak code), fun _ => rfl⟩
  cases room with
  | false => exact dispatch_full _
  | true => exact dispatch_room _

/-! ## What mailbox room changes (42_message_formatter.md R135) -/

/-- A command of unit 2 is one function of its reassembler, which does not see the room bit. -/
theorem exists_exec_eq_onInstance {c : Instr} (hunit : c.unit = 2) :
    ∃ g : Config → Rx → Rx × Result, ∀ s, exec c s = onInstance s fun i r => finishRx i (g s.cfg r) s := by
  cases c with
  | rxByte b => exact ⟨fun cfg r => receiveByte cfg r b, fun _ => rfl⟩
  | rxTimeout => exact ⟨fun _ r => (r.toIdle, .error .timeout), fun _ => rfl⟩
  | _ => simp [Instr.unit] at hunit

/-- With either room bit, a command on `RX[i]` makes the same of its reassembler, or is another unit's and answers
`ILLEGAL`. -/
theorem exec_rx_of_room {s u : State} {i : Nat} {c : Instr} {b : Bool} (hp : s.port = .rx i)
    (h : exec c { s with room := b } = .next u) :
    (∃ out, ∀ room, exec c { s with room := room } = .next (finished i out { s with room := room })) ∨
    ∀ room, exec c { s with room := room } = raise .illegal { s with room := room } := by
  by_cases hunit : c.unit = 2
  · left
    obtain ⟨g, hg⟩ := exists_exec_eq_onInstance hunit
    cases hr : s.rx[i]? with
    | none => simp [hg, onInstance, hp, hr] at h
    | some r =>
      refine ⟨g s.cfg r, fun room => ?_⟩
      rw [hg, onInstance_at (s := { s with room := room }) hp hr, finishRx_eq]
  · right
    have hforeign : s.port.unit ≠ c.unit := fun e => hunit (by rw [← e, hp]; rfl)
    exact fun room => exec_foreign (s := { s with room := room }) hforeign

/-- Settles O46: `finished` uses the room bit in the message and in `delivered` only, and another unit's command emits
nothing. -/
theorem droppedMessagesAreConsumedAllTheSame : Obligations.DroppedMessagesAreConsumedAllTheSame := by
  intro s u v i c hp hu hv
  obtain ⟨out, hout⟩ | hill := exec_rx_of_room hp hu
  · obtain rfl := next_inj ((hout false).symm.trans hu)
    obtain rfl := next_inj ((hout true).symm.trans hv)
    refine ⟨rfl, rfl, rfl, by simp, rfl, rfl, .ok, out.2, (messageOf out.2).isSome, by simp [hp], by simp [hp], ?_⟩
    simpa using isSome_messageOf
  · obtain rfl := raise_next.mp ((hill false).symm.trans hu)
    obtain rfl := raise_next.mp ((hill true).symm.trans hv)
    refine ⟨rfl, rfl, rfl, rfl, rfl, rfl, .illegal, .none, false, ?_, ?_, by simp⟩ <;> simp [hp, Response.zero]

/-! ## Where emissions come from (42_message_formatter.md R136) -/

/-- A reassembler transaction emits at most the one message of its own mailbox. -/
theorem finished_mailbox_cases (i : Nat) (out : Rx × Result) (s : State) :
    (finished i out s).mailbox = s.mailbox ∨ ∃ m, (finished i out s).mailbox = s.mailbox ++ [(i, m)] := by
  rw [finished_mailbox]
  cases dispatch out.2 s.room with
  | none => exact .inl (List.append_nil _)
  | some m => exact .inr ⟨m, rfl⟩

/-- Settles O12: by kind of transaction, of which only one on `TX` appends to `WIRE` and only one on `RX[k]` to a mailbox
(`finished_mailbox_cases`). -/
theorem emissionsComeOnlyFromTheirPort : Obligations.EmissionsComeOnlyFromTheirPort := by
  intro s u h
  obtain ⟨hnil, rfl⟩ | ⟨t, rest, hin, -, hu⟩ := step_effects h
  · exact ⟨fun _ => ⟨rfl, rfl⟩, fun t rest hin => by simp [hnil] at hin⟩
  refine ⟨fun hnil => by simp [hnil] at hin, fun t' rest' hin' => ?_⟩
  obtain ⟨rfl, rfl⟩ := List.cons.inj (hin.symm.trans hin')
  obtain ⟨r, -, rfl⟩ | ⟨bytes, n, hp, rfl⟩ | ⟨k, r, c, out, hp, -, -, -, rfl⟩ | ⟨c, f, st, m, -, -, -, rfl⟩ := hu
  · exact ⟨⟨[], by simp⟩, .inl rfl⟩
  · exact ⟨⟨bytes, rfl, fun _ => hp⟩, .inl rfl⟩
  · refine ⟨⟨[], by simp⟩, (finished_mailbox_cases k out _).imp_right ?_⟩
    rintro ⟨m, hm⟩
    exact ⟨k, m, hp, hm⟩
  · exact ⟨⟨[], by simp⟩, .inl rfl⟩

end Sys2Proof.Machine
end

section
/-! The proofs about the Fault Register (43_fault_register.md): what each of its commands does on port `FR`, and the laws of
its section 4, which speak of several commands in turn. -/

namespace Sys2Proof.Machine

open Sys2Proof.Claims

/-! ## Fault codes as the statements write them -/

/-- The statements' bit of a code is the model's (R146). -/
theorem codeBit_eq_bitof (k : Nat) : codeBit k = bitof k :=
  BitVec.eq_of_toNat_eq (by simp [codeBit, bitof, Nat.shiftLeft_eq])

/-- The statements' bad codes are the ones the range check refuses (R147). -/
theorem codeInRange_eq_false {code : Byte} : codeInRange code.toNat = false ↔ BadCode code := by
  simp only [codeInRange, BadCode, Bool.and_eq_false_iff, decide_eq_false_iff_not]; omega

theorem codeInRange_eq_true {code : Byte} : codeInRange code.toNat = true ↔ ¬ BadCode code := by
  rw [← codeInRange_eq_false, Bool.not_eq_false]

theorem not_badCode {code : Byte} (h1 : 1 ≤ code.toNat) (h64 : code.toNat ≤ 64) : ¬ BadCode code := by
  unfold BadCode; omega

/-! ## Fault Register commands on their port (R147 to R154) -/

section Commands
variable {s : State} {i : Instr} {code n : Byte} {c : FaultReg → Bitmap → FaultReg}

theorem onUnit_fr (hp : s.port = .fr) (k : Out) : onUnit 4 s k = k := onUnit_same (unit_eq_fr.mpr hp)

theorem raise_fr (hp : s.port = .fr) (st : Status) : raise st s = .next (answered s (.fr st 0)) := by
  rw [raise_eq, hp, zeroAnswer]

/-- The register written and an answer given on `FR` leave the state the statements write out. -/
theorem setFr_respond_eq_afterFr (hp : s.port = .fr) (f : FaultReg) (st : Status) (m : Bitmap) :
    (s.setFr f).respond (.fr st m) = afterFr s f st m := by
  simp [State.respond, State.setFr, afterFr, hp]

theorem withInvalid_eq_assert : withInvalid s = s.fr.assert (codeBit s.cfg.fcInvalid) := rfl

theorem exec_code_notInit (hi : exec i s = onCode code s c) (hp : s.port = .fr) (hok : s.fr.ok = false) :
    exec i s = .next (answered s (.fr .notInit 0)) := by
  rw [hi, onCode_notInit hp hok, State.respond, hp, answered, hp]

theorem exec_code_bad (hi : exec i s = onCode code s c) (hp : s.port = .fr) (hok : s.fr.ok = true)
    (hbad : BadCode code) : exec i s = .next (afterFr s (withInvalid s) .invalidCode 0) := by
  rw [hi, onCode_invalid hp hok (codeInRange_eq_false.mpr hbad), setFr_respond_eq_afterFr hp, withInvalid_eq_assert,
    codeBit_eq_bitof]

theorem exec_code_valid (hi : exec i s = onCode code s c) (hp : s.port = .fr) (hok : s.fr.ok = true)
    (hgood : ¬ BadCode code) : exec i s = .next (afterFr s (c s.fr (codeBit code.toNat)) .ok 0) := by
  rw [hi, onCode_valid hp hok (codeInRange_eq_true.mpr hgood), setFr_respond_eq_afterFr hp, codeBit_eq_bitof]

/-- A command on one fault code with its own change `c` of the register has the three arms that the statements say. -/
theorem codeCommand_of_onCode (hi : exec i s = onCode code s c) (hp : s.port = .fr) :
    CodeCommand i s code (c s.fr (codeBit code.toNat)) :=
  ⟨exec_code_notInit hi hp, exec_code_bad hi hp, exec_code_valid hi hp⟩

theorem exec_frPoll_absent (hp : s.port = .fr) (hn : s.cfg.nchan ≤ n.toNat) :
    exec (.frPoll n) s = .next (answered s (.fr .illegal 0)) := by
  rw [exec, execFrPoll, onUnit_fr hp, if_pos hn, raise_fr hp]

theorem exec_frPoll_notInit (hp : s.port = .fr) (hn : n.toNat < s.cfg.nchan) (hok : s.fr.ok = false) :
    exec (.frPoll n) s = .next (answered s (.fr .notInit 0)) := by
  rw [exec, execFrPoll, onUnit_fr hp, if_neg (by omega), whenInit_not hok, raise_fr hp]

theorem exec_frPoll (hp : s.port = .fr) (hn : n.toNat < s.cfg.nchan) (hok : s.fr.ok = true) :
    exec (.frPoll n) s = .next (afterFr s (s.fr.collapse n.toNat) .ok (s.fr.latched n.toNat)) := by
  rw [exec, execFrPoll, onUnit_fr hp, if_neg (by omega), whenInit_ok hok, setFr_respond_eq_afterFr hp]

end Commands

/-- A poll of an existing channel sets that channel of the list. -/
theorem FaultReg.collapse_eq_set {f : FaultReg} {n : Nat} {ch : Channel} (h : f.chan[n]? = some ch) :
    f.collapse n = ⟨f.chan.set n ⟨ch.current &&& f.sticky, ch.current &&& f.sticky⟩, f.sticky, f.ok⟩ := by
  rw [FaultReg.collapse, List.modify_eq_set_getElem?, h]; rfl

theorem FaultReg.latched_of_getElem? {f : FaultReg} {n : Nat} {ch : Channel} (h : f.chan[n]? = some ch) :
    f.latched n = ch.latched := by
  rw [FaultReg.latched, h]; rfl

/-! ## The commands' obligations -/

/-- Settles O49, by the two arms of `FR_INIT`. -/
theorem frInitClearsEverythingOrFails : Obligations.FrInitClearsEverythingOrFails := by
  refine fun s hp => ⟨fun hw => ?_, fun hw => ?_⟩
  · rw [exec, execFrInit_clears hp hw, setFr_respond_eq_afterFr hp]; rfl
  · rw [exec, execFrInit_fails hp hw, setFr_respond_eq_afterFr hp]; rfl

/-- Settles O50, from `codeCommand_of_onCode` with the change `assert`. -/
theorem frSetAssertsInEveryChannel : Obligations.FrSetAssertsInEveryChannel :=
  fun _ _ hp => codeCommand_of_onCode (c := FaultReg.assert) rfl hp

/-- Settles O51, from `codeCommand_of_onCode` with the change `retract`. -/
theorem frResetClearsCurrentAndNotLatched : Obligations.FrResetClearsCurrentAndNotLatched :=
  fun _ _ hp => codeCommand_of_onCode (c := FaultReg.retract) rfl hp

/-- Settles O52, from `codeCommand_of_onCode` with the change `addSticky`. -/
theorem frStickyAddsToTheMask : Obligations.FrStickyAddsToTheMask :=
  fun _ _ hp => codeCommand_of_onCode (c := FaultReg.addSticky) rfl hp

/-- Settles O53, by the two refusals and the poll itself, on the channel the list holds. -/
theorem frPollReturnsTheSnapshotThenMasks : Obligations.FrPollReturnsTheSnapshotThenMasks := by
  refine fun s n hp => ⟨exec_frPoll_absent hp, exec_frPoll_notInit hp, fun ch hn hok hch => ?_⟩
  rw [exec_frPoll hp hn hok, FaultReg.collapse_eq_set hch, FaultReg.latched_of_getElem? hch]

/-- Settles O54: the bad-code arm that the three commands share, and the valid arm of `FR_SET` at `FC_INVALID`, which is a
code in range. -/
theorem badCodeActsAsSettingTheInvalidCode : Obligations.BadCodeActsAsSettingTheInvalidCode := by
  intro s code fc i ⟨h1, h64⟩ hfc hp hok hbad hi
  constructor
  · obtain rfl | rfl | rfl := hi <;> exact exec_code_bad rfl hp hok hbad
  · have hset := exec_code_valid (i := .frSet fc) rfl hp hok (not_badCode (by omega) (by omega))
    rwa [hfc] at hset

/-- Settles O55: the refusing arms of the poll, and of the three commands on a code whatever the code is. -/
theorem frCommandsAreGated : Obligations.FrCommandsAreGated :=
  fun _ hp => ⟨fun _ => exec_frPoll_absent hp, fun hok => ⟨fun _ hn => exec_frPoll_notInit hp hn hok, fun _ =>
    ⟨exec_code_notInit rfl hp hok, exec_code_notInit rfl hp hok, exec_code_notInit rfl hp hok⟩⟩⟩

/-! ## Commands in turn on an initialised register -/

/-- One command that an initialised register of `nchan` channels accepts: the register before, the register after, and the
bitmap answered. -/
inductive FrStep (nchan : Nat) : Instr → FaultReg → FaultReg → Bitmap → Prop
  | set {code : Byte} (f : FaultReg) (h : ¬ BadCode code) :
      FrStep nchan (.frSet code) f (f.assert (codeBit code.toNat)) 0
  | reset {code : Byte} (f : FaultReg) (h : ¬ BadCode code) :
      FrStep nchan (.frReset code) f (f.retract (codeBit code.toNat)) 0
  | sticky {code : Byte} (f : FaultReg) (h : ¬ BadCode code) :
      FrStep nchan (.frSticky code) f (f.addSticky (codeBit code.toNat)) 0
  | poll {n : Byte} (f : FaultReg) (h : n.toNat < nchan) :
      FrStep nchan (.frPoll n) f (f.collapse n.toNat) (f.latched n.toNat)

/-- Accepted commands one after another: the register before the first, the register after the last, and every bitmap
answered. -/
inductive FrRun (nchan : Nat) : List Instr → FaultReg → FaultReg → List Bitmap → Prop
  | nil (f : FaultReg) : FrRun nchan [] f f []
  | cons {i : Instr} {is : List Instr} {f g h : FaultReg} {m : Bitmap} {shown : List Bitmap}
      (hi : FrStep nchan i f g m) (his : FrRun nchan is g h shown) : FrRun nchan (i :: is) f h (m :: shown)

/-- The state after accepted Fault Register commands that left the register `f` and answered the bitmaps `shown`. -/
def afterFrs (s : State) (f : FaultReg) (shown : List Bitmap) : State :=
  { s with fr := f, answers := s.answers ++ shown.map fun m => ⟨.fr, .fr .ok m⟩ }

section InTurn
variable {nchan : Nat} {s t : State} {i : Instr} {is js : List Instr} {f g h : FaultReg} {m : Bitmap} {a b : List Bitmap}

theorem FrStep.ok_eq (hi : FrStep nchan i f g m) : g.ok = f.ok := by cases hi <;> rfl

theorem FrRun.ok_eq (hrun : FrRun nchan is f g a) : g.ok = f.ok := by
  induction hrun with
  | nil => rfl
  | cons hi _ ih => exact ih.trans hi.ok_eq

theorem FrRun.append (hrun : FrRun nchan is f g a) (hrun' : FrRun nchan js g h b) :
    FrRun nchan (is ++ js) f h (a ++ b) := by
  induction hrun with
  | nil => exact hrun'
  | cons hi _ ih => exact .cons hi (ih hrun')

/-- An accepted command is what `exec` does. -/
theorem FrStep.exec_eq (hi : FrStep s.cfg.nchan i s.fr g m) (hp : s.port = .fr) (hok : s.fr.ok = true) :
    exec i s = .next (afterFr s g .ok m) := by
  cases hi with
  | set _ hgood => exact exec_code_valid rfl hp hok hgood
  | reset _ hgood => exact exec_code_valid rfl hp hok hgood
  | sticky _ hgood => exact exec_code_valid rfl hp hok hgood
  | poll _ hn => exact exec_frPoll hp hn hok

theorem inTurn_cons (h : exec i s = .next t) : inTurn (i :: is) s = inTurn is t := by
  rw [inTurn, h]

theorem afterFrs_afterFr (s : State) (f g : FaultReg) (m : Bitmap) (shown : List Bitmap) :
    afterFrs (afterFr s f .ok m) g shown = afterFrs s g (m :: shown) := by
  simp [afterFrs, afterFr]

/-- Accepted commands in turn are what `inTurn` does. -/
theorem FrRun.inTurn_eq (hrun : FrRun s.cfg.nchan is s.fr g a) (hp : s.port = .fr) (hok : s.fr.ok = true) :
    inTurn is s = .next (afterFrs s g a) := by
  generalize hn : s.cfg.nchan = nchan, hf : s.fr = f at hrun
  induction hrun generalizing s with
  | nil => simp [inTurn, afterFrs, ← hf]
  | cons hi _ ih =>
    subst hn hf
    rw [inTurn_cons (hi.exec_eq hp hok), ih (s := afterFr s _ .ok _) hp (hi.ok_eq.trans hok) rfl rfl,
      afterFrs_afterFr]

/-- Two polls of a channel in a row show its `latched`, then what the first poll left of its `current`. -/
theorem frRun_two_polls {n : Byte} (f : FaultReg) (hn : n.toNat < nchan) :
    FrRun nchan [.frPoll n, .frPoll n] f ((f.collapse n.toNat).collapse n.toNat)
      [f.latched n.toNat, f.current n.toNat &&& f.sticky] := by
  have hsecond := FrStep.poll (f.collapse n.toNat) hn
  rw [latched_collapse, if_pos rfl] at hsecond
  exact .cons (.poll f hn) (.cons hsecond (.nil _))

/-- Any polls of existing channels are accepted. What every one of them keeps of the register holds after the last, and
each bitmap answered is a polled channel's `latched` in such a register. -/
theorem exists_frRun_polls {P : FaultReg → Prop} {ns : List Byte} (hns : ∀ n ∈ ns, n.toNat < nchan)
    (hkeep : ∀ n ∈ ns, ∀ f, P f → P (f.collapse n.toNat)) (hf : P f) :
    ∃ g shown, FrRun nchan (ns.map .frPoll) f g shown ∧ P g ∧ shown.length = ns.length ∧
      ∀ m ∈ shown, ∃ n ∈ ns, ∃ h : FaultReg, P h ∧ m = h.latched n.toNat := by
  induction ns generalizing f with
  | nil => exact ⟨f, [], .nil f, hf, rfl, by simp⟩
  | cons n ns ih =>
    obtain ⟨hn, hns⟩ := List.forall_mem_cons.mp hns
    obtain ⟨hkeepn, hkeep⟩ := List.forall_mem_cons.mp hkeep
    obtain ⟨g, shown, hrun, hg, hlen, hshown⟩ := ih hns hkeep (hkeepn f hf)
    refine ⟨g, _, .cons (.poll f hn) hrun, hg, congrArg (· + 1) hlen, List.forall_mem_cons.mpr ⟨?_, fun m hm => ?_⟩⟩
    · exact ⟨n, List.mem_cons_self, f, hf, rfl⟩
    · obtain ⟨k, hk, hlatched⟩ := hshown m hm
      exact ⟨k, List.mem_cons_of_mem n hk, hlatched⟩

end InTurn

/-! ## Inclusion of bitmaps -/

theorem subset_or_right (x m : Bitmap) : subset m (x ||| m) :=
  subset_iff.mpr fun k hk => by simp [hk]

theorem subset_and {m x y : Bitmap} (hx : subset m x) (hy : subset m y) : subset m (x &&& y) := by
  rw [subset_iff] at *
  intro k hk
  simp [hx k hk, hy k hk]

theorem and_compl_and_and (x m y : Bitmap) : x &&& ~~~m &&& y &&& m = 0 := by
  calc x &&& ~~~m &&& y &&& m
    _ = x &&& y &&& (m &&& ~~~m) := by ac_rfl
    _ = 0 := by simp

/-! ## The laws (43_fault_register.md section 4) -/

/-- A fault that polls of channel `n` cannot clear: sticky, asserted, and shown. -/
def StickyShown (m : Bitmap) (n : Nat) (f : FaultReg) : Prop :=
  subset m f.sticky ∧ subset m (f.current n) ∧ subset m (f.latched n)

theorem StickyShown.of_set {m : Bitmap} {n : Nat} {f : FaultReg} (hn : n < f.chan.length) :
    StickyShown m n ((f.addSticky m).assert m) := by
  refine ⟨subset_or_right _ _, ?_, ?_⟩
  · rw [current_assert (f.addSticky m) m n hn]
    exact subset_or_right _ _
  · rw [latched_assert (f.addSticky m) m n hn]
    exact subset_or_right _ _

theorem StickyShown.collapse {m : Bitmap} {n : Nat} {f : FaultReg} (h : StickyShown m n f) :
    StickyShown m n (f.collapse n) := by
  obtain ⟨hsticky, hcurrent, -⟩ := h
  have hboth := subset_and hcurrent hsticky
  refine ⟨hsticky, ?_, ?_⟩
  · rwa [current_collapse, if_pos rfl]
  · rwa [latched_collapse, if_pos rfl]

/-- Settles O56: the poll shows `latched` as the set left it. -/
theorem setThenPollShowsTheBit : Obligations.SetThenPollShowsTheBit := by
  intro s code n ⟨hp, hok, hlen⟩ h1 h64 hn
  have hrun := FrRun.cons (.set s.fr (not_badCode h1 h64)) (.cons (.poll _ hn) (.nil _))
  rw [latched_assert _ _ _ (hlen ▸ hn)] at hrun
  exact ⟨_, hrun.inTurn_eq hp hok, rfl⟩

/-- Settles O57: the set puts the code's bit in `latched`, where no reset clears it, and what the first poll leaves of
`current` has sticky bits only. -/
theorem nonStickyFaultIsShownOnce : Obligations.NonStickyFaultIsShownOnce := by
  intro s code n ⟨hp, hok, hlen⟩ h1 h64 hn hsticky
  have hgood := not_badCode h1 h64
  have hset := FrStep.set (nchan := s.cfg.nchan) s.fr hgood
  have hshown : subset (codeBit code.toNat) ((s.fr.assert (codeBit code.toNat)).latched n.toNat) := by
    rw [latched_assert _ _ _ (hlen ▸ hn)]
    exact subset_or_right _ _
  have hgone (x : Bitmap) : x &&& s.fr.sticky &&& codeBit code.toNat = 0 := by
    rw [BitVec.and_assoc, hsticky]
    exact BitVec.and_zero
  constructor
  · exact ⟨_, _, _, (FrRun.cons hset (frRun_two_polls _ hn)).inTurn_eq hp hok, rfl, hshown, hgone _⟩
  · have hrun := FrRun.cons hset (.cons (.reset _ hgood) (frRun_two_polls _ hn))
    rw [latched_retract] at hrun
    exact ⟨_, _, _, hrun.inTurn_eq hp hok, rfl, hshown, hgone _⟩

/-- Settles O58: polls keep the fault sticky and shown (`StickyShown.collapse`); the reset leaves it in `latched` and not
in `current`, which is what the two polls after it show. -/
theorem stickyFaultStaysUntilReset : Obligations.StickyFaultStaysUntilReset := by
  intro s code n k ⟨hp, hok, hlen⟩ h1 h64 hn
  have hgood := not_badCode h1 h64
  have hset := FrRun.cons (nchan := s.cfg.nchan) (.sticky s.fr hgood) (.cons (.set _ hgood) (.nil _))
  obtain ⟨g, shown, hpolls, ⟨-, -, hlatched⟩, hk, hshown⟩ := exists_frRun_polls (ns := List.replicate k n)
    (P := StickyShown (codeBit code.toNat) n.toNat) (fun x hx => List.eq_of_mem_replicate hx ▸ hn)
    (fun x hx _ hf => List.eq_of_mem_replicate hx ▸ hf.collapse) (.of_set (hlen ▸ hn))
  rw [List.map_replicate] at hpolls
  rw [List.length_replicate] at hk
  have hrun := (hset.append hpolls).append (.cons (.reset _ hgood) (frRun_two_polls _ hn))
  rw [latched_retract, current_retract] at hrun
  refine ⟨_, shown, g.latched n.toNat, g.current n.toNat &&& ~~~codeBit code.toNat &&& g.sticky,
    hrun.inTurn_eq hp hok, ?answers, hk, fun m hm => ?polls, hlatched, and_compl_and_and _ _ _⟩
  case answers => simp [afterFrs]
  case polls =>
    obtain ⟨x, hx, _, ⟨-, -, hm⟩, rfl⟩ := hshown m hm
    rwa [List.eq_of_mem_replicate hx]

/-- Settles O59: a poll of another channel leaves `latched` of channel `n`. -/
theorem everyChannelReportsEveryFault : Obligations.EveryChannelReportsEveryFault := by
  intro s code n others ⟨hp, hok, hlen⟩ h1 h64 hn hothers
  have hset := FrStep.set (nchan := s.cfg.nchan) s.fr (not_badCode h1 h64)
  have hshown := subset_or_right (s.fr.latched n.toNat) (codeBit code.toNat)
  rw [← latched_assert _ _ _ (hlen ▸ hn)] at hshown
  have hkeep : ∀ m ∈ others, ∀ f : FaultReg, subset (codeBit code.toNat) (f.latched n.toNat) →
      subset (codeBit code.toNat) ((f.collapse m.toNat).latched n.toNat) := by
    intro m hm f hf
    have hne : n.toNat ≠ m.toNat := fun e => (hothers m hm).1 (BitVec.eq_of_toNat_eq e.symm)
    rwa [latched_collapse, if_neg hne]
  obtain ⟨g, shown, hpolls, hg, -⟩ := exists_frRun_polls (fun m hm => (hothers m hm).2) hkeep hshown
  have hrun := FrRun.cons hset hpolls
  exact ⟨_, _, _, hrun.inTurn_eq hp hok, exec_frPoll hp hn (hrun.ok_eq.trans hok), rfl, hg⟩

end Sys2Proof.Machine
end

section
/-! The proof about error reporting (60_exceptions.md): the Fault Register is written by commands on `FR` only. -/

namespace Sys2Proof.Machine

/-- Settles O20: of the effects of a step (`step_effects`) only the command on `FR` writes the register; an answer with any
status, wire bytes and a reassembler's result with its message leave it. -/
theorem onlyFrCommandsWriteTheFaultRegister : Obligations.OnlyFrCommandsWriteTheFaultRegister := by
  intro s u h hport
  obtain ⟨-, rfl⟩ | ⟨t, rest, hin, -, hu⟩ := step_effects h
  · rfl
  obtain ⟨r, -, rfl⟩ | ⟨bytes, n, -, rfl⟩ | ⟨k, r, i, out, -, -, -, -, rfl⟩ | ⟨i, f, st, m, hfr, -⟩ := hu
  · rw [State.respond_fr, State.present_fr]
  · rw [State.respond_fr, State.emitWire_fr, State.present_fr]
  · rw [finished_fr, State.present_fr]
  · exact absurd hfr (hport t rest hin)

end Sys2Proof.Machine
end

section
/-! The proofs about reset and hazards (70_reset_and_hazards.md): every transaction completes with one response, and which
commands a fault outlives. -/

namespace Sys2Proof.Machine

/-! ## Completion (70_reset_and_hazards.md R217) -/

/-- Settles O11: a legal transaction has an effect (`exists_effect`), whose one answer is on the transaction's port. -/
theorem everyTransactionCompletesWithOneResponse : Obligations.EveryTransactionCompletesWithOneResponse := by
  intro s t rest hinv hin ht
  have ⟨hlegal, _⟩ := hinv
  obtain ⟨e, hon, hexec, -⟩ := exists_effect (rest := rest) (rest' := rest) hinv ht (.refl _)
  refine ⟨_, e.answer.response, (step_of_input hlegal hin).trans hexec, rfl, rfl, ?_⟩
  rw [← hon.answer]
  rfl

/-! ## What clears a fault (70_reset_and_hazards.md R201, 10_state.md R22 to R25) -/

section Persistence
variable {s u : State} {i : Instr} {f : FaultReg}

theorem subset_refl (x : Bitmap) : subset x x := Channel.sound_same x

theorem subset_or_left (x m : Bitmap) : subset x (x ||| m) := by
  rw [BitVec.or_comm]
  exact subset_or_right m x

/-- An assertion clears nothing; a channel past the last reads 0 before and after. -/
theorem subset_current_assert (f : FaultReg) (m : Bitmap) (c : Nat) :
    subset (f.current c) ((f.assert m).current c) := by
  simp only [FaultReg.current, FaultReg.assert_chan, List.getElem?_map]
  cases f.chan[c]? with
  | none => exact subset_refl 0
  | some ch => exact subset_or_left ch.current m

theorem subset_latched_assert (f : FaultReg) (m : Bitmap) (c : Nat) :
    subset (f.latched c) ((f.assert m).latched c) := by
  simp only [FaultReg.latched, FaultReg.assert_chan, List.getElem?_map]
  cases f.chan[c]? with
  | none => exact subset_refl 0
  | some ch => exact subset_or_left ch.latched m

theorem FrEffect.subset_current (he : FrEffect s i f) (hreset : ∀ c, i ≠ .frReset c) (hpoll : ∀ n, i ≠ .frPoll n)
    (hinit : i ≠ .frInit) (c : Nat) : subset (s.fr.current c) (f.current c) := by
  cases he with
  | clear | fail => exact absurd rfl hinit
  | reset code | resetInvalid code => exact absurd rfl (hreset code)
  | poll n => exact absurd rfl (hpoll n)
  | set | setInvalid | stickyInvalid => exact subset_current_assert _ _ c
  | sticky => exact subset_refl _

theorem FrEffect.subset_latched (he : FrEffect s i f) (hpoll : ∀ n, i ≠ .frPoll n) (hinit : i ≠ .frInit) (c : Nat) :
    subset (s.fr.latched c) (f.latched c) := by
  cases he with
  | clear | fail => exact absurd rfl hinit
  | poll n => exact absurd rfl (hpoll n)
  | set | setInvalid | resetInvalid | stickyInvalid => exact subset_latched_assert _ _ c
  | reset =>
    rw [latched_retract]
    exact subset_refl _
  | sticky => exact subset_refl _

theorem FrEffect.subset_sticky (he : FrEffect s i f) (hinit : i ≠ .frInit) : subset s.fr.sticky f.sticky := by
  cases he with
  | clear | fail => exact absurd rfl hinit
  | sticky => exact subset_or_left _ _
  | set | setInvalid | reset | resetInvalid | stickyInvalid | poll => exact subset_refl _

theorem FrEffect.ok_eq (he : FrEffect s i f) (hinit : i ≠ .frInit) : f.ok = s.fr.ok := by
  cases he with
  | clear | fail => exact absurd rfl hinit
  | set | setInvalid | reset | resetInvalid | sticky | stickyInvalid | poll => rfl

/-- A command leaves the Fault Register, or changes it in one of the ways of `FrEffect`. -/
theorem exec_fr (h : exec i s = .next u) : u.fr = s.fr ∨ FrEffect s i u.fr := by
  obtain ⟨r, -, rfl⟩ | ⟨bytes, n, -, rfl⟩ | ⟨k, r, out, -, -, -, rfl⟩ | ⟨f, st, m, -, he, rfl⟩ := exec_cases h
  · exact .inl rfl
  · exact .inl rfl
  · exact .inl rfl
  · exact .inr he

end Persistence

/-- Settles O22: an idle step goes on in the same state (`step_cases`), and a command that writes the register has one of
the effects of `FrEffect`, each of which clears only what its own command may. -/
theorem faultsPersistUntilResetPollOrInit : Obligations.FaultsPersistUntilResetPollOrInit := by
  refine ⟨fun s u hin h => ?_, fun s u i h => ?_⟩
  · obtain ⟨-, ⟨-, hu⟩ | ⟨t, rest, hcons, -⟩⟩ := step_cases h
    · exact hu
    · exact absurd (hcons.symm.trans hin) (List.cons_ne_nil t rest)
  · obtain hsame | he := exec_fr h
    · rw [hsame]
      exact ⟨fun _ _ => subset_refl _, fun _ _ => subset_refl _, fun _ => ⟨subset_refl _, rfl⟩⟩
    · exact ⟨fun ⟨hreset, hpoll, hinit⟩ => he.subset_current hreset hpoll hinit,
        fun ⟨hpoll, hinit⟩ => he.subset_latched hpoll hinit, fun hinit => ⟨he.subset_sticky hinit, he.ok_eq hinit⟩⟩

end Sys2Proof.Machine
end
